-- ==== Sys2Proof/Word.lean ====
section
/-! DEFINITION. The word types of the machine: plain abbreviations, so that the library's BitVec lemmas apply. -/

namespace Sys2Proof

/-- One byte of memory or of an instruction (20_memory.md R33). -/
abbrev Byte := BitVec 8

/-- A 32-bit vector element, "dword element" (00_scope.md R15). -/
abbrev Dword := BitVec 32

/-- A 64-bit address, general register or instruction pointer (10_state.md R23, R24; 20_memory.md R33). -/
abbrev Word := BitVec 64

/-- One 128-bit lane, four dwords (00_scope.md R8, R15). -/
abbrev Lane := BitVec 128

/-- A 512-bit container. A value of `VL` bits stands in its low `VL` bits, with zeros above. -/
abbrev Vec := BitVec 512

end Sys2Proof
end

