-- ==== Sys2Proof/Syntax.lean ====
section
/-! DEFINITION. The ten forms of VPERMILPS as decoded instructions: one constructor per row of the opcode table
(00_scope.md R2, 30_encoding.md R57, R58). -/

namespace Sys2Proof

/-- The names of the rows of the opcode table, in its order (00_scope.md R2). -/
inductive Form where
  | f1 | f2 | f3 | f4 | f5 | f6 | f7 | f8 | f9 | f10
deriving DecidableEq, Repr

/-- A vector length (00_scope.md R8). -/
inductive VL where
  | v128 | v256 | v512
deriving DecidableEq, Repr

/-- The displacement that `ModRM.mod` asks for: none, one byte or four bytes (30_encoding.md R75). -/
inductive Disp where
  | none
  | d8 (b : BitVec 8)
  | d32 (b : BitVec 32)
deriving DecidableEq, Repr

/-- The addressing forms of a memory operand (30_encoding.md R72 to R75). Base and index are general register
numbers with their `B` or `X` bit in front. Bits of the encoding that the form ignores are not kept (log 17). -/
inductive Addr where
  /-- No SIB byte: `G[B :: rm]` plus displacement (R72). -/
  | base (b : BitVec 4) (disp : Disp)
  /-- SIB byte with a base: index 0100b means no index (R74). -/
  | sib (scale : BitVec 2) (index b : BitVec 4) (disp : Disp)
  /-- SIB byte, `base` = 101b and `mod` = 00b: no base, four displacement bytes (R74). -/
  | sibNoBase (scale : BitVec 2) (index : BitVec 4) (disp : BitVec 32)
  /-- `mod` = 00b and `rm` = 101b: relative to the next instruction (R73). -/
  | ripRel (disp : BitVec 32)
deriving DecidableEq, Repr

/-- The `r/m` operand of a VEX form: a register 0 to 15, or memory (30_encoding.md R69, R70). -/
inductive VexRM where
  | reg (m : BitVec 4)
  | mem (a : Addr)
deriving DecidableEq, Repr

/-- The `r/m` operand of an EVEX form: a register 0 to 31, or memory, whole or one element broadcast by `EVEX.b`
(30_encoding.md R67, R69, R71). -/
inductive EvexRM where
  | reg (m : BitVec 5)
  | mem (a : Addr) (bcst : Bool)
deriving DecidableEq, Repr

/-- The masking fields of an EVEX form: `aaa` = 0 is no writemask, `z` asks for zeroing (30_encoding.md R66). -/
structure WriteMask where
  aaa : BitVec 3
  z   : Bool
deriving DecidableEq, Repr

/-- A decoded instruction. `d` is the destination (operand 1), `s1` the data register of a variable-control form
(operand 2), `rm` the `r/m` operand (30_encoding.md R58). -/
inductive Instr where
  /-- F1, `VEX.NDS.128.66.0F38.W0 0C /r` (41_vpermilps_variable.md R105). -/
  | vexVar128 (d s1 : BitVec 4) (rm : VexRM)
  /-- F2, `VEX.128.66.0F3A.W0 04 /r ib` (42_vpermilps_immediate.md R110). -/
  | vexImm128 (d : BitVec 4) (rm : VexRM) (imm8 : BitVec 8)
  /-- F3, `VEX.NDS.256.66.0F38.W0 0C /r` (R106). -/
  | vexVar256 (d s1 : BitVec 4) (rm : VexRM)
  /-- F4, `VEX.256.66.0F3A.W0 04 /r ib` (R111). -/
  | vexImm256 (d : BitVec 4) (rm : VexRM) (imm8 : BitVec 8)
  /-- F5, `EVEX.NDS.128.66.0F38.W0 0C /r` (R107). -/
  | evexVar128 (d s1 : BitVec 5) (rm : EvexRM) (m : WriteMask)
  /-- F6, `EVEX.NDS.256.66.0F38.W0 0C /r` (R108). -/
  | evexVar256 (d s1 : BitVec 5) (rm : EvexRM) (m : WriteMask)
  /-- F7, `EVEX.NDS.512.66.0F38.W0 0C /r` (R109). -/
  | evexVar512 (d s1 : BitVec 5) (rm : EvexRM) (m : WriteMask)
  /-- F8, `EVEX.128.66.0F3A.W0 04 /r ib` (R112). -/
  | evexImm128 (d : BitVec 5) (rm : EvexRM) (m : WriteMask) (imm8 : BitVec 8)
  /-- F9, `EVEX.256.66.0F3A.W0 04 /r ib` (R113). -/
  | evexImm256 (d : BitVec 5) (rm : EvexRM) (m : WriteMask) (imm8 : BitVec 8)
  /-- F10, `EVEX.512.66.0F3A.W0 04 /r ib` (R114). -/
  | evexImm512 (d : BitVec 5) (rm : EvexRM) (m : WriteMask) (imm8 : BitVec 8)
deriving DecidableEq, Repr

end Sys2Proof
end

