-- ==== Sys2Proof/WellFormed.lean ====
section
/-! DEFINITION. Which terms of `Instr` are instructions: those that some encoding stands for. -/

namespace Sys2Proof

/-- The addressing forms that ModRM and SIB can spell. A base whose low bits are 100b needs a SIB byte (R72), and
a base whose low bits are 101b needs a displacement (R73, R74). -/
def Addr.wf : Addr → Bool
  | .base b disp    => b.extractLsb' 0 3 != 4#3 && !(disp == .none && b.extractLsb' 0 3 == 5#3)
  | .sib _ _ b disp => !(disp == .none && b.extractLsb' 0 3 == 5#3)
  | .sibNoBase ..   => true
  | .ripRel _       => true

def VexRM.wf : VexRM → Bool
  | .reg _ => true
  | .mem a => a.wf

def EvexRM.wf : EvexRM → Bool
  | .reg _   => true
  | .mem a _ => a.wf

/-- `z` = 1 with `aaa` = 000b is reserved: zeroing-masking without a writemask is not encodable
(30_encoding.md R66, R84). -/
def WriteMask.wf (m : WriteMask) : Bool := !(m.z && m.aaa == 0#3)

def Instr.wf : Instr → Bool
  | .vexVar128 _ _ rm    => rm.wf
  | .vexImm128 _ rm _    => rm.wf
  | .vexVar256 _ _ rm    => rm.wf
  | .vexImm256 _ rm _    => rm.wf
  | .evexVar128 _ _ rm m => rm.wf && m.wf
  | .evexVar256 _ _ rm m => rm.wf && m.wf
  | .evexVar512 _ _ rm m => rm.wf && m.wf
  | .evexImm128 _ rm m _ => rm.wf && m.wf
  | .evexImm256 _ rm m _ => rm.wf && m.wf
  | .evexImm512 _ rm m _ => rm.wf && m.wf

end Sys2Proof
end

