-- ==== Sys2Proof/Decode.lean ====
section
/-! DEFINITION. The table of forms, the decoder (30_encoding.md R80, total on any bytes) and the encoder, written
from the same encoding rules R55 to R79. -/

namespace Sys2Proof

/-! ### The table of forms (00_scope.md R2, R8; 30_encoding.md R57, R58) -/

/-- `VL`, the vector length in bits (R8). -/
def VL.bits : VL → Nat
  | .v128 => 128
  | .v256 => 256
  | .v512 => 512

/-- `KL`, the number of 32-bit elements and of writemask bits used (R8). -/
def VL.kl : VL → Nat
  | .v128 => 4
  | .v256 => 8
  | .v512 => 16

/-- `VL/8`, the bytes of a full memory operand (20_memory.md R35). -/
def VL.bytes : VL → Nat
  | .v128 => 16
  | .v256 => 32
  | .v512 => 64

/-- The VEX length field `L` or the EVEX length field `L'L` (R56, R65). -/
def VL.field : VL → BitVec 2
  | .v128 => 0#2
  | .v256 => 1#2
  | .v512 => 2#2

/-- The vector length of each row (R57). -/
def Form.vl : Form → VL
  | .f1 | .f2 | .f5 | .f8 => .v128
  | .f3 | .f4 | .f6 | .f9 => .v256
  | .f7 | .f10 => .v512

/-- F5 to F10 are EVEX-encoded, F1 to F4 VEX-encoded (R57). -/
def Form.isEvex : Form → Bool
  | .f1 | .f2 | .f3 | .f4 => false
  | .f5 | .f6 | .f7 | .f8 | .f9 | .f10 => true

/-- Whether the row lists the CPUID flag AVX512VL (00_scope.md R2). -/
def Form.needsAVX512VL : Form → Bool
  | .f5 | .f6 | .f8 | .f9 => true
  | .f1 | .f2 | .f3 | .f4 | .f7 | .f10 => false

/-- The row of the opcode table that an instruction belongs to. -/
def Instr.form : Instr → Form
  | .vexVar128 ..  => .f1
  | .vexImm128 ..  => .f2
  | .vexVar256 ..  => .f3
  | .vexImm256 ..  => .f4
  | .evexVar128 .. => .f5
  | .evexVar256 .. => .f6
  | .evexVar512 .. => .f7
  | .evexImm128 .. => .f8
  | .evexImm256 .. => .f9
  | .evexImm512 .. => .f10

/-! ### Length (R79) -/

/-- The displacement bytes, lowest first (R75; 20_memory.md R39). -/
def Disp.bytes : Disp → List Byte
  | .none  => []
  | .d8 b  => [b]
  | .d32 b => [b.extractLsb' 0 8, b.extractLsb' 8 8, b.extractLsb' 16 8, b.extractLsb' 24 8]

/-- SIB byte and displacement bytes of an addressing form (R79). -/
def Addr.tailLen : Addr → Nat
  | .base _ disp     => disp.bytes.length
  | .sib _ _ _ disp  => 1 + disp.bytes.length
  | .sibNoBase _ _ _ => 5
  | .ripRel _        => 4

def VexRM.tailLen : VexRM → Nat
  | .reg _ => 0
  | .mem a => a.tailLen

def EvexRM.tailLen : EvexRM → Nat
  | .reg _   => 0
  | .mem a _ => a.tailLen

/-- `len` of a VEX form: prefix 3, opcode 1, ModRM 1, then SIB and displacement, then `imm8` if any (R79). -/
def vexLen (rm : VexRM) (imm : Bool) : Nat := 5 + rm.tailLen + imm.toNat

/-- `len` of an EVEX form: prefix 4, opcode 1, ModRM 1, then SIB and displacement, then `imm8` if any (R79). -/
def evexLen (rm : EvexRM) (imm : Bool) : Nat := 6 + rm.tailLen + imm.toNat

/-- `len`, the number of bytes of the encoded instruction (R79). -/
def instrLen : Instr → Nat
  | .vexVar128 _ _ rm    => vexLen rm false
  | .vexImm128 _ rm _    => vexLen rm true
  | .vexVar256 _ _ rm    => vexLen rm false
  | .vexImm256 _ rm _    => vexLen rm true
  | .evexVar128 _ _ rm _ => evexLen rm false
  | .evexVar256 _ _ rm _ => evexLen rm false
  | .evexVar512 _ _ rm _ => evexLen rm false
  | .evexImm128 _ rm _ _ => evexLen rm true
  | .evexImm256 _ rm _ _ => evexLen rm true
  | .evexImm512 _ rm _ _ => evexLen rm true

/-- The longest instruction has 12 bytes (R79). -/
def maxInstrLen : Nat := 12

/-! ### The decoder (R80) -/

/-- What the decoder answers on a list of bytes (R80). -/
inductive Decoded where
  /-- One of the ten forms, and the bytes after the instruction. -/
  | instr (i : Instr) (rest : List Byte)
  /-- `Exception(#UD)`: a reserved or forbidden encoding (R59, R62, R65 to R67, R78, R81). -/
  | ud
  /-- A legacy prefix the architecture allows and the spec refuses (R59, D21). -/
  | legacyPrefix
  /-- The bytes do not spell VPERMILPS (R80, R81 row 12). -/
  | notThis
  /-- The list ends before the decoder can answer. -/
  | more
deriving DecidableEq, Repr

/-- Variable control (opcode 0CH, map 0F38) or immediate control (opcode 04H, map 0F3A) (R57). -/
inductive OpKind where
  | var
  | imm
deriving DecidableEq, Repr

/-- The two (map, opcode byte) pairs of R57; `map` is the low two bits of the map field. -/
def opKind (map : BitVec 2) (op : Byte) : Option OpKind :=
  if map = 2#2 ∧ op = 0x0C#8 then some .var
  else if map = 3#2 ∧ op = 0x04#8 then some .imm
  else none

/-- The `r/m` operand before it is known whether the form is VEX or EVEX: `rm` of a register operand, or memory. -/
inductive RawRM where
  | reg (rm : BitVec 3)
  | mem (a : Addr)
deriving DecidableEq, Repr

/-- Four bytes, lowest first, as a 32-bit number (20_memory.md R39). -/
def le32 (b0 b1 b2 b3 : Byte) : BitVec 32 := b3 ++ b2 ++ b1 ++ b0

/-- Reads the displacement that `mod` asks for and puts it into an addressing form (R75); `none` when the bytes run
out. -/
def takeDisp (mod : BitVec 2) (mk : Disp → Addr) (bs : List Byte) : Option (Addr × List Byte) :=
  if mod = 0#2 then some (mk .none, bs)
  else if mod = 1#2 then
    match bs with
    | b :: rest => some (mk (.d8 b), rest)
    | [] => none
  else
    match bs with
    | b0 :: b1 :: b2 :: b3 :: rest => some (mk (.d32 (le32 b0 b1 b2 b3)), rest)
    | _ => none

/-- Reads four displacement bytes. -/
def takeDisp32 (mk : BitVec 32 → Addr) (bs : List Byte) : Option (Addr × List Byte) :=
  match bs with
  | b0 :: b1 :: b2 :: b3 :: rest => some (mk (le32 b0 b1 b2 b3), rest)
  | _ => none

/-- The memory operand of `mod` != 11b (R72 to R75), with the true `X` and `B`. -/
def decodeAddr (x b : Bool) (mod : BitVec 2) (rm : BitVec 3) (bs : List Byte) : Option (Addr × List Byte) :=
  if rm = 4#3 then
    match bs with
    | [] => none
    | sib :: rest =>
      let scale := sib.extractLsb' 6 2
      let index := BitVec.ofBool x ++ sib.extractLsb' 3 3
      let base := sib.extractLsb' 0 3
      if mod = 0#2 ∧ base = 5#3 then takeDisp32 (.sibNoBase scale index) rest
      else takeDisp mod (.sib scale index (BitVec.ofBool b ++ base)) rest
  else if mod = 0#2 ∧ rm = 5#3 then takeDisp32 .ripRel bs
  else takeDisp mod (.base (BitVec.ofBool b ++ rm)) bs

/-- ModRM and what follows it but `imm8` (R68 to R75): the field `reg`, the `r/m` operand, the bytes after. -/
def decodeModRM (x b : Bool) (bs : List Byte) : Option (BitVec 3 × RawRM × List Byte) :=
  match bs with
  | [] => none
  | modrm :: rest =>
    let mod := modrm.extractLsb' 6 2
    let reg := modrm.extractLsb' 3 3
    let rm := modrm.extractLsb' 0 3
    if mod = 3#2 then some (reg, .reg rm, rest)
    else (decodeAddr x b mod rm rest).map fun (a, rest') => (reg, .mem a, rest')

/-- The `r/m` operand of a VEX form: with `mod` = 11b it is register `B :: rm`, and `X` is ignored (R70). -/
def RawRM.toVex (b : Bool) : RawRM → VexRM
  | .reg rm => .reg (BitVec.ofBool b ++ rm)
  | .mem a  => .mem a

/-- The `r/m` operand of an EVEX form: register `X :: B :: rm`, or memory with the broadcast bit (R67, R71). -/
def RawRM.toEvex (x b bcst : Bool) : RawRM → EvexRM
  | .reg rm => .reg (BitVec.ofBool x ++ BitVec.ofBool b ++ rm)
  | .mem a  => .mem a bcst

def vexVarOf (long : Bool) (d s1 : BitVec 4) (rm : VexRM) : Instr :=
  if long then .vexVar256 d s1 rm else .vexVar128 d s1 rm

def vexImmOf (long : Bool) (d : BitVec 4) (rm : VexRM) (imm8 : BitVec 8) : Instr :=
  if long then .vexImm256 d rm imm8 else .vexImm128 d rm imm8

/-- The bytes after C4H (R60, R61, R80). -/
def decodeVex : List Byte → Decoded
  | b1 :: b2 :: op :: bs =>
    if b2.extractLsb' 0 2 ≠ 1#2 then .notThis
    else if b1.extractLsb' 2 3 ≠ 0#3 then .notThis
    else
      match opKind (b1.extractLsb' 0 2) op with
      | none => .notThis
      | some kind =>
        if b2.getLsbD 7 then .ud
        else if kind = .imm ∧ b2.extractLsb' 3 4 ≠ 15#4 then .ud
        else
          let r := !b1.getLsbD 7
          let x := !b1.getLsbD 6
          let b := !b1.getLsbD 5
          match decodeModRM x b bs with
          | none => .more
          | some (reg, raw, rest) =>
            let d := BitVec.ofBool r ++ reg
            match kind, rest with
            | .var, rest => .instr (vexVarOf (b2.getLsbD 2) d (~~~(b2.extractLsb' 3 4)) (raw.toVex b)) rest
            | .imm, i :: rest => .instr (vexImmOf (b2.getLsbD 2) d (raw.toVex b) i) rest
            | .imm, [] => .more
  | _ => .more

def evexVarOf (vl : VL) (d s1 : BitVec 5) (rm : EvexRM) (m : WriteMask) : Instr :=
  match vl with
  | .v128 => .evexVar128 d s1 rm m
  | .v256 => .evexVar256 d s1 rm m
  | .v512 => .evexVar512 d s1 rm m

def evexImmOf (vl : VL) (d : BitVec 5) (rm : EvexRM) (m : WriteMask) (imm8 : BitVec 8) : Instr :=
  match vl with
  | .v128 => .evexImm128 d rm m imm8
  | .v256 => .evexImm256 d rm m imm8
  | .v512 => .evexImm512 d rm m imm8

/-- The EVEX length field; 11b is reserved (R65). -/
def evexVL (ll : BitVec 2) : Option VL :=
  if ll = 0#2 then some .v128 else if ll = 1#2 then some .v256 else if ll = 2#2 then some .v512 else none

/-- The bytes after 62H (R63, R64, R80). -/
def decodeEvex : List Byte → Decoded
  | p0 :: p1 :: p2 :: op :: bs =>
    if p0.extractLsb' 2 2 ≠ 0#2 ∨ p1.getLsbD 2 = false then .ud
    else if p1.extractLsb' 0 2 ≠ 1#2 then .notThis
    else
      match opKind (p0.extractLsb' 0 2) op with
      | none => .notThis
      | some kind =>
        if p1.getLsbD 7 then .ud
        else
          match evexVL (p2.extractLsb' 5 2) with
          | none => .ud
          | some vl =>
            if p2.getLsbD 7 ∧ p2.extractLsb' 0 3 = 0#3 then .ud
            else if kind = .imm ∧ (p1.extractLsb' 3 4 ≠ 15#4 ∨ p2.getLsbD 3 = false) then .ud
            else
              let r := !p0.getLsbD 7
              let x := !p0.getLsbD 6
              let b := !p0.getLsbD 5
              let r' := !p0.getLsbD 4
              match bs with
              | [] => .more
              | modrm :: _ =>
                if modrm.extractLsb' 6 2 = 3#2 ∧ p2.getLsbD 4 then .ud
                else
                  match decodeModRM x b bs with
                  | none => .more
                  | some (reg, raw, rest) =>
                    let d := BitVec.ofBool r' ++ BitVec.ofBool r ++ reg
                    let s1 := BitVec.ofBool (!p2.getLsbD 3) ++ ~~~(p1.extractLsb' 3 4)
                    let m : WriteMask := ⟨p2.extractLsb' 0 3, p2.getLsbD 7⟩
                    let rm := raw.toEvex x b (p2.getLsbD 4)
                    match kind, rest with
                    | .var, rest => .instr (evexVarOf vl d s1 rm m) rest
                    | .imm, i :: rest => .instr (evexImmOf vl d rm m i) rest
                    | .imm, [] => .more
  | _ => .more

/-- A byte that makes the instruction `#UD` when it stands directly before a VEX or EVEX prefix: 66H, F2H, F3H, F0H
and REX 40H to 4FH (R59). -/
def isForbiddenPrefix (b : Byte) : Bool :=
  b == 0x66#8 || b == 0xF2#8 || b == 0xF3#8 || b == 0xF0#8 || b.extractLsb' 4 4 == 4#4

/-- A byte the architecture allows before a VEX or EVEX prefix and the spec refuses (R59, D21). -/
def isRefusedPrefix (b : Byte) : Bool :=
  b == 0x26#8 || b == 0x2E#8 || b == 0x36#8 || b == 0x3E#8 || b == 0x64#8 || b == 0x65#8 || b == 0x67#8

/-- C4H, C5H and 62H always begin a VEX or EVEX prefix in 64-bit mode (R80). -/
def isVectorEscape (b : Byte) : Bool := b == 0xC4#8 || b == 0xC5#8 || b == 0x62#8

/-- The decoder of R80, on the bytes at `rip` in ascending order. -/
def decode : List Byte → Decoded
  | [] => .more
  | b0 :: bs =>
    if isForbiddenPrefix b0 then
      match bs with
      | [] => .more
      | b1 :: _ => if isVectorEscape b1 then .ud else .notThis
    else if isRefusedPrefix b0 then .legacyPrefix
    else if b0 = 0xC4#8 then decodeVex bs
    else if b0 = 0x62#8 then decodeEvex bs
    else .notThis

/-! ### The encoder (R55 to R79) -/

/-- What an `r/m` operand puts into the prefix, ModRM and the bytes after it; `x` and `b` are the true values. -/
structure RMBits where
  x    : Bool
  b    : Bool
  mod  : BitVec 2
  rm   : BitVec 3
  tail : List Byte
deriving DecidableEq, Repr

/-- `ModRM.mod` of a displacement (R75). -/
def Disp.mod : Disp → BitVec 2
  | .none  => 0#2
  | .d8 _  => 1#2
  | .d32 _ => 2#2

/-- The SIB byte (R74). -/
def sibByte (scale : BitVec 2) (index base : BitVec 3) : Byte := scale ++ index ++ base

def Addr.bits : Addr → RMBits
  | .base b disp => ⟨false, b.getLsbD 3, disp.mod, b.extractLsb' 0 3, disp.bytes⟩
  | .sib scale index b disp =>
    ⟨index.getLsbD 3, b.getLsbD 3, disp.mod, 4#3,
      sibByte scale (index.extractLsb' 0 3) (b.extractLsb' 0 3) :: disp.bytes⟩
  | .sibNoBase scale index disp =>
    ⟨index.getLsbD 3, false, 0#2, 4#3, sibByte scale (index.extractLsb' 0 3) 5#3 :: (Disp.d32 disp).bytes⟩
  | .ripRel disp => ⟨false, false, 0#2, 5#3, (Disp.d32 disp).bytes⟩

def VexRM.bits : VexRM → RMBits
  | .reg m => ⟨false, m.getLsbD 3, 3#2, m.extractLsb' 0 3, []⟩
  | .mem a => a.bits

def EvexRM.bits : EvexRM → RMBits
  | .reg m   => ⟨m.getLsbD 4, m.getLsbD 3, 3#2, m.extractLsb' 0 3, []⟩
  | .mem a _ => a.bits

/-- `EVEX.b` (R67). -/
def EvexRM.bcst : EvexRM → Bool
  | .reg _   => false
  | .mem _ b => b

def modRMByte (mod : BitVec 2) (reg rm : BitVec 3) : Byte := mod ++ reg ++ rm

/-- VEX byte 1: `R̄ X̄ B̄ mmmmm` (R60); `map` is the low two bits of `mmmmm`. -/
def vexByte1 (r x b : Bool) (map : BitVec 2) : Byte :=
  BitVec.ofBool (!r) ++ BitVec.ofBool (!x) ++ BitVec.ofBool (!b) ++ 0#3 ++ map

/-- VEX byte 2: `W v̄v̄v̄v̄ L pp` with `W` = 0 and `pp` = 01b (R60, R61); `v` is the true value. -/
def vexByte2 (v : BitVec 4) (long : Bool) : Byte := 0#1 ++ ~~~v ++ BitVec.ofBool long ++ 1#2

/-- Prefix, opcode, ModRM, SIB and displacement of a VEX form (R55, R61). -/
def encodeVex (map : BitVec 2) (op : Byte) (long : Bool) (d v : BitVec 4) (rm : VexRM) : List Byte :=
  let w := rm.bits
  [0xC4#8, vexByte1 (d.getLsbD 3) w.x w.b map, vexByte2 v long, op, modRMByte w.mod (d.extractLsb' 0 3) w.rm]
    ++ w.tail

/-- EVEX `P0`: `R̄ X̄ B̄ R̄' 0 0 mm` (R63). -/
def evexP0 (r x b r' : Bool) (map : BitVec 2) : Byte :=
  BitVec.ofBool (!r) ++ BitVec.ofBool (!x) ++ BitVec.ofBool (!b) ++ BitVec.ofBool (!r') ++ 0#2 ++ map

/-- EVEX `P1`: `W v̄v̄v̄v̄ 1 pp` with `W` = 0 and `pp` = 01b (R63). -/
def evexP1 (v : BitVec 4) : Byte := 0#1 ++ ~~~v ++ 1#1 ++ 1#2

/-- EVEX `P2`: `z L'L b V̄' aaa` (R63). -/
def evexP2 (m : WriteMask) (vl : VL) (bcst v' : Bool) : Byte :=
  BitVec.ofBool m.z ++ vl.field ++ BitVec.ofBool bcst ++ BitVec.ofBool (!v') ++ m.aaa

/-- Prefix, opcode, ModRM, SIB and displacement of an EVEX form (R55, R64). -/
def encodeEvex (map : BitVec 2) (op : Byte) (vl : VL) (d v : BitVec 5) (rm : EvexRM) (m : WriteMask) : List Byte :=
  let w := rm.bits
  [0x62#8, evexP0 (d.getLsbD 3) w.x w.b (d.getLsbD 4) map, evexP1 (v.extractLsb' 0 4),
    evexP2 m vl rm.bcst (v.getLsbD 4), op, modRMByte w.mod (d.extractLsb' 0 3) w.rm] ++ w.tail

/-- The bytes of an instruction at ascending addresses (R55, R61, R64, R77). An immediate form stores `vvvv` = 1111b
and `V̄'` = 1 (R78), that is the true value 0. Ignored bits are stored as true value 0 (log 17). -/
def encode : Instr → List Byte
  | .vexVar128 d s1 rm      => encodeVex 2#2 0x0C#8 false d s1 rm
  | .vexImm128 d rm imm8    => encodeVex 3#2 0x04#8 false d 0#4 rm ++ [imm8]
  | .vexVar256 d s1 rm      => encodeVex 2#2 0x0C#8 true d s1 rm
  | .vexImm256 d rm imm8    => encodeVex 3#2 0x04#8 true d 0#4 rm ++ [imm8]
  | .evexVar128 d s1 rm m   => encodeEvex 2#2 0x0C#8 .v128 d s1 rm m
  | .evexVar256 d s1 rm m   => encodeEvex 2#2 0x0C#8 .v256 d s1 rm m
  | .evexVar512 d s1 rm m   => encodeEvex 2#2 0x0C#8 .v512 d s1 rm m
  | .evexImm128 d rm m imm8 => encodeEvex 3#2 0x04#8 .v128 d 0#5 rm m ++ [imm8]
  | .evexImm256 d rm m imm8 => encodeEvex 3#2 0x04#8 .v256 d 0#5 rm m ++ [imm8]
  | .evexImm512 d rm m imm8 => encodeEvex 3#2 0x04#8 .v512 d 0#5 rm m ++ [imm8]

/-! ### The host's reading of a table word -/

/-- `count` bytes of a number, lowest first. -/
def natBytes : Nat → Nat → List Byte
  | 0, _ => []
  | n + 1, w => BitVec.ofNat 8 w :: natBytes n (w / 256)

/-- The bytes of a table word of `nbits` bits, with zero bytes above up to the longest instruction. -/
def tableBytes (nbits w : Nat) : List Byte := natBytes maxInstrLen (w % 2 ^ nbits)

/-- The instruction that the decoder reads from the bytes of a table word. -/
def decodeTableWord (nbits w : Nat) : Option Instr :=
  match decode (tableBytes nbits w) with
  | .instr i _ => some i
  | _ => none

end Sys2Proof
end

