-- ==== Sys2Proof/Config.lean ====
section
/-! DEFINITION. What an implementation fixes: the open parameters of 00_scope.md R9, and the one constant of the
reset table that names a particular chip. -/

namespace Sys2Proof

/-- `KWIDTH`, the width of an opmask register: OPEN, 16 or 64 (00_scope.md R9, 10_state.md R21, D5). -/
inductive KWidth where
  | w16
  | w64
deriving DecidableEq, Repr

/-- The capability flags and widths of one processor (00_scope.md R9, 10_state.md R28, D24). They are configuration,
constant during a run. The machine's state holds one value of this type, so a claim over every state is a claim over
every configuration (log 1). -/
structure Config where
  /-- The CPUID feature flag AVX is reported. -/
  hasAVX : Bool
  /-- The CPUID feature flag AVX512F is reported. -/
  hasAVX512F : Bool
  /-- The CPUID feature flag AVX512VL is reported. -/
  hasAVX512VL : Bool
  /-- `KWIDTH`. -/
  kwidth : KWidth
deriving DecidableEq, Repr

/-- PRESUMED (log 2; unsafe). 10_state.md R32 says that `rdx` holds "a processor signature" after reset and gives no
value; this is the signature of one processor of the family that has all three feature flags. -/
def Config.processorSignature : Word := 0x50654#64

end Sys2Proof
end

