-- ==== Sys2Proof/Machine/State.lean ====
section
/-! DEFINITION. The machine's state: everything the spec names (10_state.md; 20_memory.md R33, R44, R47;
60_exceptions.md R128), as plain data; the faults and the refusals; the state after reset. -/

namespace Sys2Proof.Machine

/-- The two kinds of access of `Mem` (20_memory.md R47): `Mem.read` and `Mem.fetch`. -/
inductive Access where
  | data
  | fetch
deriving DecidableEq, Repr

/-- The fault that a range of addresses answers with (20_memory.md R47; 60_exceptions.md R125, R128). For a page
fault the recorded address is that of the faulting byte (log 6). PRESUMED (log 3): the fault code is 32 bits wide, the
family's width; R128 names its bits 0 to 4 and gives no width. -/
inductive RangeFault where
  | ss0
  | gp0
  | page (code : BitVec 32)
deriving DecidableEq, Repr

/-- One clause of the environment `Mem`: accesses of this kind, made at a privilege level whose bit is set in
`cpls`, fault in the addresses `first` to `last` (20_memory.md R47, D10; log 6). -/
structure FaultRange where
  first  : Nat
  last   : Nat
  access : Access
  cpls   : BitVec 4
  answer : RangeFault
deriving DecidableEq, Repr

/-- A window of a device whose reads have side effects (20_memory.md R44). -/
structure DeviceWindow where
  first : Nat
  last  : Nat
deriving DecidableEq, Repr

/-- The environment `Mem` as data (20_memory.md R47): the bytes that are mapped, the ranges that fault, the windows
of devices. An address that `cells` does not list has no byte (log 7). -/
structure Memory where
  cells   : List Host.Cell
  faults  : List FaultRange
  devices : List DeviceWindow
deriving DecidableEq, Repr

/-- The exceptions of the instruction, each a terminal outcome that leaves the state as it was before the
instruction (60_exceptions.md R127, R131; log 10). All are safe: the hardware raises them too, or the spec's decision
errs toward a fault (30_encoding.md R81). -/
inductive Fault where
  /-- `#UD`, vector 6: raised by `decode` (reserved encodings) and by `checkUD` (R119, R120, R123). -/
  | ud
  /-- `#NM`, vector 7: raised by `precheck` when `CR0.TS` = 1 (R124). -/
  | nm
  /-- `#SS(0)`, vector 12: raised by a memory access where `Mem` says so (R125). -/
  | ss
  /-- `#GP(0)`, vector 13: raised by a memory access where `Mem` says so (R125). -/
  | gp
  /-- `#PF(code)`, vector 14, with the faulting linear address: raised by a memory access to a byte that is not
  mapped or that `Mem` protects (R125, R128). -/
  | pf (code : BitVec 32) (addr : Word)
deriving DecidableEq, Repr

/-- Situations to which the spec gives no meaning. All are safe: nothing is claimed about them. -/
inductive Refusal where
  /-- Raised by an arm of `exec` whose instruction has no meaning yet. Safe. -/
  | notModelled (mnemonic : String)
  /-- Raised by `step` and `precheck` outside 64-bit mode (D4; 30_encoding.md R83). Safe. -/
  | not64BitMode
  /-- Raised by `step` on a segment-override or address-size byte (30_encoding.md R59, D21). Safe. -/
  | legacyPrefix
  /-- Raised by `step` on bytes that do not spell VPERMILPS (30_encoding.md R80, R81 row 12). Safe. -/
  | notVpermilps
  /-- Raised by a fetch past the top of memory and by `complete` when `rip + len` passes it (10_state.md R24, D22).
  Safe. -/
  | ripWrap
  /-- Raised by `operandAt` when the effective-address sum passes the top of memory (20_memory.md R48, D22; log 14).
  Safe. -/
  | addressWrap
  /-- Raised by `operandRead` when the operand would wrap (20_memory.md R48, D22). Safe. -/
  | operandWrap
  /-- Raised by `operandRead` in the situation in which `#AC` could arise (20_memory.md R42, D7). Safe. -/
  | alignmentCheck
  /-- Raised by a read that touches a device window (20_memory.md R44, D8). Safe. -/
  | deviceMemory
deriving DecidableEq, Repr

/-- The state of the machine. -/
structure State where
  /-- The processor's capabilities: configuration, written by nothing (10_state.md R28; log 1). -/
  cfg    : Config
  /-- `V[0]` to `V[31]`, in 512-bit containers (R17, R18; log 4). -/
  v      : Vector Vec 32
  /-- `K[0]` to `K[7]`, in 64-bit containers (R21; log 5). -/
  k      : Vector Word 8
  /-- `G[0]` to `G[15]`: rax, rcx, rdx, rbx, rsp, rbp, rsi, rdi, r8 to r15 (R23). -/
  g      : Vector Word 16
  /-- The address of the instruction's first byte (R24). -/
  rip    : Word
  /-- `RFLAGS`, fields VM and AC (R25, R27). -/
  rflags : Word
  /-- `MXCSR` (R26). -/
  mxcsr  : BitVec 32
  /-- `CR0`, fields PE, EM, TS, AM (R27). -/
  cr0    : Word
  /-- `CR2`, where the hardware's delivery of a page fault records the address (60_exceptions.md R128). -/
  cr2    : Word
  /-- `CR4`, field OSXSAVE (R27). -/
  cr4    : Word
  /-- `XCR0`, fields SSE, AVX, opmask, ZMM_Hi256, Hi16_ZMM (R27). -/
  xcr0   : Word
  /-- `IA32_EFER`, field LMA (R27). -/
  efer   : Word
  /-- `CS.L`, 64-bit code segment (R27). -/
  csL    : Bool
  /-- The base of the code segment (R32); zero is used in 64-bit mode (20_memory.md R37). -/
  csBase : Word
  /-- The current privilege level (R27, 60_exceptions.md R137). -/
  cpl    : BitVec 2
  /-- Memory and its fault answers (20_memory.md R33, R44, R47). -/
  mem    : Memory
deriving DecidableEq, Repr

/-- The machine right after reset: the table of 10_state.md R32. The values are the family's (PRESUMED, log 2) and the
configuration is the model's (DESIGN CHOICE, log 1); no rule and no statement but `ResetTable` and
`ResetStateMeetsInvariant` depends on them. -/
def State.reset : State where
  cfg    := ⟨true, true, true, .w64⟩
  v      := Vector.replicate 32 0
  k      := Vector.replicate 8 0
  g      := (Vector.replicate 16 0).set 2 Config.processorSignature
  rip    := 0xFFF0#64
  rflags := 0x2#64
  mxcsr  := 0x1F80#32
  cr0    := 0x60000010#64
  cr2    := 0
  cr4    := 0
  xcr0   := 1
  efer   := 0
  csL    := false
  csBase := 0xFFFF0000#64
  cpl    := 0
  mem    := ⟨[], [], []⟩

end Sys2Proof.Machine
end

