-- ==== Sys2Proof/Machine/Flags.lean ====
section
/-! DEFINITION. The flag and control bits the instruction depends on (10_state.md R27), and the conditions computed
from them (20_memory.md R42; 60_exceptions.md R123; 70_reset_and_hazards.md R142). The instruction writes no flag
(R25, R26, R101), so there is no flag computation. -/

namespace Sys2Proof.Machine

/-- `CR0.PE`, bit 0 (R27). -/
def State.pe (s : State) : Bool := s.cr0.getLsbD 0

/-- `CR0.TS`, bit 3 (R27). -/
def State.ts (s : State) : Bool := s.cr0.getLsbD 3

/-- `CR0.AM`, bit 18 (R27). -/
def State.am (s : State) : Bool := s.cr0.getLsbD 18

/-- `CR4.OSXSAVE`, bit 18 (R27). -/
def State.osxsave (s : State) : Bool := s.cr4.getLsbD 18

/-- `XCR0[2:1]`, the SSE and AVX state bits (R27). -/
def State.xcr0SseAvx (s : State) : BitVec 2 := s.xcr0.extractLsb' 1 2

/-- `XCR0[7:5]`, the opmask, ZMM_Hi256 and Hi16_ZMM state bits (R27). -/
def State.xcr0Avx512 (s : State) : BitVec 3 := s.xcr0.extractLsb' 5 3

/-- `RFLAGS.VM`, bit 17 (R27). -/
def State.vm (s : State) : Bool := s.rflags.getLsbD 17

/-- `RFLAGS.AC`, bit 18 (R27). -/
def State.ac (s : State) : Bool := s.rflags.getLsbD 18

/-- `IA32_EFER.LMA`, bit 10 (R27). -/
def State.lma (s : State) : Bool := s.efer.getLsbD 10

/-- `MODE` = 64-bit (R142, D4). -/
def State.mode64 (s : State) : Bool := s.pe && !s.vm && s.lma && s.csL

/-- The situation in which `#AC` could be raised for a misaligned operand (20_memory.md R42, D7). -/
def State.alignmentChecked (s : State) : Bool := s.am && s.ac && s.cpl == 3#2

/-- The CPUID flags of the form's row are all reported (60_exceptions.md R120). -/
def capable (f : Form) (c : Config) : Bool :=
  (f.isEvex || c.hasAVX) && (!f.isEvex || c.hasAVX512F) && (!f.needsAVX512VL || c.hasAVX512VL)

/-- `Enabled(form, s)`: the conditions under which a form executes instead of faulting
(70_reset_and_hazards.md R142). -/
def enabled (f : Form) (s : State) : Bool :=
  s.mode64 && s.osxsave && s.xcr0SseAvx == 3#2 && !s.ts && capable f s.cfg && (!f.isEvex || s.xcr0Avx512 == 7#3)

end Sys2Proof.Machine
end

