-- ==== Sys2Proof/Machine/Ops.lean ====
section
/-! DEFINITION. The named operations over memory and registers, the check that every form passes first, raising an
exception, and completing. -/

namespace Sys2Proof.Machine

open Host (Outcome)

/-- Runs `k` on the result of `o`; a fault or a refusal of `o` ends the instruction. -/
def andThen {α β : Type} (o : Outcome α Fault Refusal) (k : α → Outcome β Fault Refusal) :
    Outcome β Fault Refusal :=
  match o with
  | .next a    => k a
  | .fault f   => .fault f
  | .refused r => .refused r

/-! ### Exceptions (60_exceptions.md R127, R128, R131) -/

/-- `raise #XX(info)`: the step ends with the terminal outcome `Fault(#XX, info)`, and the machine's state is exactly
the state before the instruction (R131). The spec describes no delivery to a handler (R7, R132; log 10). -/
def raise {α : Type} (f : Fault) : Outcome α Fault Refusal := .fault f

/-- What an exception records (R127, R128). -/
structure ExceptionRecord where
  /-- The vector number. -/
  vector    : Nat
  /-- The error code, where the exception has one. -/
  errorCode : Option (BitVec 32)
  /-- The saved instruction pointer: the address of the faulting instruction. -/
  savedRip  : Word
  /-- The faulting linear address that a page fault records for `CR2`. -/
  address   : Option Word
deriving DecidableEq, Repr

/-- The vector number (R127). -/
def faultVector : Fault → Nat
  | .ud     => 6
  | .nm     => 7
  | .ss     => 12
  | .gp     => 13
  | .pf _ _ => 14

/-- The error code: none for `#UD` and `#NM`, 0 for `#SS` and `#GP`, the fault code for `#PF` (R127). -/
def faultErrorCode : Fault → Option (BitVec 32)
  | .ud | .nm => none
  | .ss | .gp => some 0
  | .pf code _ => some code

/-- The recorded address: only `#PF` has one (R128). -/
def faultAddress : Fault → Option Word
  | .ud | .nm | .ss | .gp => none
  | .pf _ a => some a

/-- What a fault raised in a state records (R128): the saved instruction pointer is `rip`, which the faulting
instruction left unchanged (R131). -/
def exceptionRecord (f : Fault) (s : State) : ExceptionRecord :=
  ⟨faultVector f, faultErrorCode f, s.rip, faultAddress f⟩

/-! ### Registers (10_state.md R17 to R24) -/

/-- `MAXVL`, the width of a whole vector register (00_scope.md R9, D1). -/
def maxvl (c : Config) : Nat := if c.hasAVX512F then 512 else 256

/-- `NVEC`, the number of vector registers (00_scope.md R9, D2). -/
def nvec (c : Config) : Nat := if c.hasAVX512F then 32 else 16

/-- `KWIDTH` in bits (R21). -/
def kwidth (c : Config) : Nat :=
  match c.kwidth with
  | .w16 => 16
  | .w64 => 64

/-- The low `n` bits of a container, zeros above: a field `x[n-1:0]` zero-extended. -/
def lowBits {w : Nat} (n : Nat) (x : BitVec w) : BitVec w := (x.setWidth n).setWidth w

/-- `V[n]`: the whole register, `MAXVL` bits (R12, R17). -/
def readV (s : State) (n : BitVec 5) : Vec := lowBits (maxvl s.cfg) (s.v[n.toNat]'n.isLt)

/-- `V[n] <- x`: the whole register, `MAXVL` bits (R12, R20). -/
def writeV (s : State) (n : BitVec 5) (x : Vec) : State :=
  { s with v := s.v.set n.toNat (lowBits (maxvl s.cfg) x) n.isLt }

/-- A read through a `VL`-bit name: bits `VL-1:0`, the bits above ignored (R18). -/
def readVL (s : State) (vl : VL) (n : BitVec 5) : Vec := lowBits vl.bits (readV s n)

/-- `K[n]`: `KWIDTH` bits (R12, R21). -/
def readK (s : State) (n : BitVec 3) : Word := lowBits (kwidth s.cfg) (s.k[n.toNat]'n.isLt)

/-- `G[n]` (R12, R23). -/
def readG (s : State) (n : BitVec 4) : Word := s.g[n.toNat]'n.isLt

/-! ### Memory (20_memory.md R33 to R54) -/

/-- The byte listed for an address. -/
def cellAt : List Host.Cell → Nat → Option Byte
  | [], _ => none
  | c :: cs, a => if c.1 = a then some c.2 else cellAt cs a

/-- The cells with one byte written, addresses kept strictly rising. -/
def putCell : List Host.Cell → Nat → Byte → List Host.Cell
  | [], a, b => [(a, b)]
  | c :: cs, a, b =>
    if a < c.1 then (a, b) :: c :: cs
    else if a = c.1 then (a, b) :: cs
    else c :: putCell cs a b

/-- Addresses strictly rising. -/
def risingCells : List Host.Cell → Bool
  | [] => true
  | [_] => true
  | c :: d :: cs => c.1 < d.1 && risingCells (d :: cs)

/-- The canonical form: addresses strictly rising and below 2^64. An unlisted address has no byte, so no entry can
equal what it reads as (log 7). -/
def Memory.wf (m : Memory) : Bool := risingCells m.cells && m.cells.all (fun c => c.1 < 2 ^ 64)

/-- Writes bytes at ascending addresses; an address past the top of the space does not exist and is left out. -/
def putBytes : List Host.Cell → Nat → List Byte → List Host.Cell
  | cs, _, [] => cs
  | cs, a, b :: bs => putBytes (if a < 2 ^ 64 then putCell cs a b else cs) (a + 1) bs

/-- `MemWrite` of 00_scope.md R12: no instruction uses it (20_memory.md R54); the launch does. -/
def memWrite (s : State) (a : Nat) (bs : List Byte) : State :=
  { s with mem := { s.mem with cells := putBytes s.mem.cells a bs } }

/-- Whether a clause of `Mem` forbids this access to this byte at this privilege level (R47). -/
def FaultRange.covers (r : FaultRange) (acc : Access) (cpl : BitVec 2) (a : Nat) : Bool :=
  r.first ≤ a && a ≤ r.last && r.access == acc && r.cpls.getLsbD cpl.toNat

/-- The exception a clause of `Mem` answers with, for the faulting byte `a` (R47; 60_exceptions.md R128). -/
def rangeFault (f : RangeFault) (a : Nat) : Fault :=
  match f with
  | .ss0 => .ss
  | .gp0 => .gp
  | .page code => .pf code (BitVec.ofNat 64 a)

/-- Whether `n` bytes from `a` on touch a device window (R44). -/
def touchesDevice (s : State) (a n : Nat) : Bool :=
  s.mem.devices.any fun w => w.first < a + n && a ≤ w.last

/-- `Mem`'s answer for one byte: the first clause that covers it, else the byte listed for it, else `#PF(0, a)`, the
partial map of R47 (log 6, log 7). -/
def byteAt (s : State) (acc : Access) (a : Nat) : Outcome Byte Fault Refusal :=
  match s.mem.faults.find? (fun r => r.covers acc s.cpl a) with
  | some r => raise (rangeFault r.answer a)
  | none =>
    match cellAt s.mem.cells a with
    | some b => .next b
    | none => raise (.pf 0 (BitVec.ofNat 64 a))

/-- The bytes `a` to `a+n-1`, lowest first, or the fault of the lowest byte that faults (R40, R47). -/
def readBytes (s : State) (acc : Access) : Nat → Nat → Outcome (List Byte) Fault Refusal
  | 0, _ => .next []
  | n + 1, a =>
    andThen (byteAt s acc a) fun b =>
    andThen (readBytes s acc n (a + 1)) fun bs => .next (b :: bs)

/-- Little-endian assembly: the byte at the lowest address holds bits 7:0 (R38, D6). -/
def leValue : List Byte → Vec
  | [] => 0
  | b :: bs => (leValue bs <<< 8) ||| b.setWidth 512

/-- `MemRead(ea, n)`, the one data read of an instruction (R35, R40), with the refusals of R42, R44 and R48. No
alignment is required (R41), and the mask plays no part (R45). -/
def operandRead (s : State) (ea : Word) (n : Nat) : Outcome Vec Fault Refusal :=
  if s.alignmentChecked && ea.toNat % n != 0 then .refused .alignmentCheck
  else if 2 ^ 64 ≤ ea.toNat + n - 1 then .refused .operandWrap
  else if touchesDevice s ea.toNat n then .refused .deviceMemory
  else andThen (readBytes s .data n ea.toNat) fun bs => .next (leValue bs)

/-! ### Fetch (20_memory.md R39, R47, R52) -/

/-- One instruction byte. DESIGN CHOICE (log 16; safe): a byte in a device window is refused before `Mem.fetch` is asked,
so that such a byte never gives a fetch fault. R129 row 1 and R44 leave that order open. -/
def fetchByte (s : State) (a : Nat) : Outcome Byte Fault Refusal :=
  if 2 ^ 64 ≤ a then .refused .ripWrap
  else if touchesDevice s a 1 then .refused .deviceMemory
  else byteAt s .fetch a

/-- The instruction bytes that can be fetched from `a` on, up to the first that cannot, at most `n`. -/
def fetchWindow (s : State) : Nat → Nat → List Byte
  | 0, _ => []
  | n + 1, a =>
    match fetchByte s a with
    | .next b => b :: fetchWindow s n (a + 1)
    | .fault _ => []
    | .refused _ => []

/-- How the fetch ends at the first byte that cannot be fetched. A full window never leaves the decoder short
(30_encoding.md R79), so the answer for an empty window is never used. -/
def fetchStop (s : State) : Nat → Nat → Outcome State Fault Refusal
  | 0, _ => .refused .notVpermilps
  | n + 1, a =>
    match fetchByte s a with
    | .next _ => fetchStop s n (a + 1)
    | .fault f => .fault f
    | .refused r => .refused r

/-- The longest fetch of `Mem.fetch` (R47). -/
def fetchLimit : Nat := 15

/-- The decoder's answer for the bytes at `rip` (30_encoding.md R80). -/
def fetchDecode (s : State) : Decoded := decode (fetchWindow s fetchLimit s.rip.toNat)

/-! ### The check before every form, and the end of every form -/

/-- `CheckUD(form)` (60_exceptions.md R123), then the refusal of every other mode but 64-bit mode (D4), then the
conditions left of R123, then `#NM` (R124): rows 3 and 4 of the order of R129. -/
def precheck (f : Form) (s : State) : Outcome Unit Fault Refusal :=
  if !s.pe || s.vm then raise .ud
  else if !s.mode64 then .refused .not64BitMode
  else if !s.osxsave then raise .ud
  else if s.xcr0SseAvx != 3#2 then raise .ud
  else if f.isEvex && s.xcr0Avx512 != 7#3 then raise .ud
  else if !f.isEvex && !s.cfg.hasAVX then raise .ud
  else if f.isEvex && !s.cfg.hasAVX512F then raise .ud
  else if f.needsAVX512VL && !s.cfg.hasAVX512VL then raise .ud
  else if s.ts then raise .nm
  else .next ()

/-- `rip <- rip + len` (40_vpermilps_common.md R95). -/
def advance (s : State) (len : Nat) : State := { s with rip := s.rip + BitVec.ofNat 64 len }

/-- Steps 5 and 6 of R94, one atomic change of state: the whole destination register, then `rip`. A form whose
`rip + len` would pass the top of memory is refused (10_state.md R24, D22; log 13). -/
def complete (s : State) (d : BitVec 5) (result : Vec) (len : Nat) : Outcome State Fault Refusal :=
  if 2 ^ 64 ≤ s.rip.toNat + len then .refused .ripWrap
  else .next (advance (writeV s d result) len)

end Sys2Proof.Machine
end

