-- ==== Sys2Proof/Machine/Operands.lean ====
section
/-! DEFINITION. The functions that every form uses: elements and lanes, `Select4`, `PermVar`, `PermImm`, `ApplyMask`
(40_vpermilps_common.md R87 to R92), the effective address (30_encoding.md R72 to R76) and `FetchRM` (R91). -/

namespace Sys2Proof.Machine

open Host (Outcome)

/-! ### Elements and lanes (00_scope.md R12; 40_vpermilps_common.md R88) -/

/-- `dword(x, j)`: bits `32j+31:32j`. -/
def dword (x : Vec) (j : Nat) : Dword := x.extractLsb' (32 * j) 32

/-- `lane(x, l)`: bits `128l+127:128l`. -/
def lane (x : Vec) (l : Nat) : Lane := x.extractLsb' (128 * l) 128

/-- The vector whose element `j` is `f j` for `j` below the count, zeros above. -/
def ofDwords : Nat → (Nat → Dword) → Vec
  | 0, _ => 0
  | n + 1, f => ofDwords n f ||| ((f n).setWidth 512 <<< (32 * n))

/-! ### Selection and permutation (R87, R89, R90) -/

/-- `Select4(src, control)`: the dword of the lane that the 2-bit control names (R87). -/
def select4 (src : Lane) (control : BitVec 2) : Dword := src.extractLsb' (32 * control.toNat) 32

/-- `PermVar(src, ctl, VL)`: element `j` is selected from the lane of `src` that has its own number, by the low two
bits of element `j` of `ctl` (R89, R97). -/
def permVar (vl : VL) (src ctl : Vec) : Vec :=
  ofDwords vl.kl fun j => select4 (lane src (j / 4)) ((dword ctl j).extractLsb' 0 2)

/-- `PermImm(src, imm8, VL)`: element `j` is selected from its own lane by the field `imm8[2p+1:2p]`, `p = j mod 4`
(R90, 30_encoding.md R77). -/
def permImm (vl : VL) (src : Vec) (imm8 : BitVec 8) : Vec :=
  ofDwords vl.kl fun j => select4 (lane src (j / 4)) (imm8.extractLsb' (2 * (j % 4)) 2)

/-- `ApplyMask(old, tmp, VL, k, z)` with the mask register's value: no writemask or mask bit 1 takes the permuted
element, mask bit 0 keeps the old element (merging) or gives 0 (zeroing) (R92). -/
def applyMask (vl : VL) (old tmp : Vec) (mask : Word) (m : WriteMask) : Vec :=
  ofDwords vl.kl fun j =>
    if m.aaa == 0#3 || mask.getLsbD j then dword tmp j
    else if m.z then 0
    else dword old j

/-! ### Effective address (30_encoding.md R72 to R76) -/

/-- The displacement's value: a displacement byte is sign-extended and multiplied by `n8`, four bytes are
sign-extended and never scaled (R75, R76). -/
def dispValue (n8 : Word) : Disp → Word
  | .none  => 0
  | .d8 b  => b.signExtend 64 * n8
  | .d32 b => b.signExtend 64

/-- `index_value` of R74: index 0100b is no index. -/
def indexValue (s : State) (scale : BitVec 2) (index : BitVec 4) : Word :=
  if index = 4#4 then 0 else readG s index <<< scale.toNat

/-- A displacement as an integer: a displacement byte is scaled by `n` (R75, R76). -/
def dispInt (n : Nat) : Disp → Int
  | .none  => 0
  | .d8 b  => b.toInt * n
  | .d32 b => b.toInt

/-- `index_value` as an integer (R74). -/
def indexInt (s : State) (scale : BitVec 2) (index : BitVec 4) : Int :=
  if index = 4#4 then 0 else (readG s index).toNat * (2 ^ scale.toNat : Nat)

/-- The effective-address sum as an integer, before it is taken modulo 2^64 (R73, R75). -/
def addrInt (s : State) (n len : Nat) : Addr → Int
  | .base b disp                => (readG s b).toNat + dispInt n disp
  | .sib scale index b disp     => (readG s b).toNat + indexInt s scale index + dispInt n disp
  | .sibNoBase scale index disp => indexInt s scale index + disp.toInt
  | .ripRel disp                => s.rip.toNat + len + disp.toInt

/-- Whether the effective-address sum stays below 2^64 (20_memory.md R48, D22; log 14). A sum below 0 is taken modulo
2^64 and wraps downwards. -/
def addressInRange (s : State) (n len : Nat) (a : Addr) : Bool := addrInt s n len a < (2 ^ 64 : Nat)

/-- The effective address, modulo 2^64 (R73, R75). `n8` scales a displacement byte, `len` is the length of the whole
instruction. It is the linear address in 64-bit mode (20_memory.md R37). -/
def effAddr (s : State) (n8 : Word) (len : Nat) : Addr → Word
  | .base b disp            => readG s b + dispValue n8 disp
  | .sib scale index b disp => readG s b + indexValue s scale index + dispValue n8 disp
  | .sibNoBase scale index disp => indexValue s scale index + disp.signExtend 64
  | .ripRel disp            => s.rip + BitVec.ofNat 64 len + disp.signExtend 64

/-! ### The `r/m` operand (R91) -/

/-- The number of bytes an EVEX form reads, and the factor `N` of its displacement byte (20_memory.md R35,
30_encoding.md R76, tuple type Full). -/
def evexBytes (vl : VL) (bcst : Bool) : Nat := if bcst then 4 else vl.bytes

/-- The read of a memory operand of `n` bytes whose displacement byte has the factor `factor` (R75, R91). It is refused
when the effective-address sum passes 2^64 - 1 (20_memory.md R48, D22; log 14). -/
def operandAt (s : State) (factor len : Nat) (a : Addr) (n : Nat) : Outcome Vec Fault Refusal :=
  if addressInRange s factor len a then operandRead s (effAddr s (BitVec.ofNat 64 factor) len a) n
  else .refused .addressWrap

/-- `KL` copies of one element (20_memory.md R36). -/
def broadcast (vl : VL) (e : Dword) : Vec := ofDwords vl.kl fun _ => e

/-- `FetchRM` of a VEX form: the register's low `VL` bits, or `VL/8` bytes of memory (R91). A displacement byte is
not scaled (30_encoding.md R76). -/
def fetchVexRM (s : State) (vl : VL) (len : Nat) : VexRM → Outcome Vec Fault Refusal
  | .reg m => .next (readVL s vl (m.setWidth 5))
  | .mem a => operandAt s 1 len a vl.bytes

/-- `FetchRM` of an EVEX form: the register's low `VL` bits, `VL/8` bytes of memory, or `KL` copies of 4 bytes
(R91). -/
def fetchEvexRM (s : State) (vl : VL) (len : Nat) : EvexRM → Outcome Vec Fault Refusal
  | .reg m => .next (readVL s vl m)
  | .mem a bcst =>
    andThen (operandAt s (evexBytes vl bcst) len a (evexBytes vl bcst)) fun x =>
      .next (if bcst then broadcast vl (dword x 0) else x)

/-! ### The execution sequence (R94) -/

/-- Steps 2 to 6 of R94 for a VEX form: check, fetch the `r/m` operand, compute, write `V[d]` and `rip`. -/
def runVex (f : Form) (s : State) (d : BitVec 4) (rm : VexRM) (len : Nat) (compute : Vec → Vec) :
    Outcome State Fault Refusal :=
  andThen (precheck f s) fun _ =>
  andThen (fetchVexRM s f.vl len rm) fun x =>
  complete s (d.setWidth 5) (compute x) len

/-- Steps 2 to 6 of R94 for an EVEX form: as `runVex`, with the permuted vector under the writemask (R92). The mask
and the old destination are read before anything is written (R98). -/
def runEvex (f : Form) (s : State) (d : BitVec 5) (rm : EvexRM) (m : WriteMask) (len : Nat) (compute : Vec → Vec) :
    Outcome State Fault Refusal :=
  andThen (precheck f s) fun _ =>
  andThen (fetchEvexRM s f.vl len rm) fun x =>
  complete s d (applyMask f.vl (readVL s f.vl d) (compute x) (readK s m.aaa) m) len

end Sys2Proof.Machine
end

