-- ==== Sys2Proof/Machine/ImmediateForms.lean ====
section
/-! DEFINITION. The five immediate-control forms (42_vpermilps_immediate.md R110 to R114): the `r/m` operand holds the
data, `imm8` the controls. -/

namespace Sys2Proof.Machine

open Host (Outcome)

/-- F2 (R110). -/
def execVexImm128 (d : BitVec 4) (rm : VexRM) (imm8 : BitVec 8) (s : State) : Outcome State Fault Refusal :=
  runVex .f2 s d rm (vexLen rm true) fun src => permImm .v128 src imm8

/-- F4 (R111). It clears the destination above bit 255 like F3 (90_conflicts.md C4, D12; log 20). -/
def execVexImm256 (d : BitVec 4) (rm : VexRM) (imm8 : BitVec 8) (s : State) : Outcome State Fault Refusal :=
  runVex .f4 s d rm (vexLen rm true) fun src => permImm .v256 src imm8

/-- F8 (R112). -/
def execEvexImm128 (d : BitVec 5) (rm : EvexRM) (m : WriteMask) (imm8 : BitVec 8) (s : State) :
    Outcome State Fault Refusal :=
  runEvex .f8 s d rm m (evexLen rm true) fun src => permImm .v128 src imm8

/-- F9 (R113). -/
def execEvexImm256 (d : BitVec 5) (rm : EvexRM) (m : WriteMask) (imm8 : BitVec 8) (s : State) :
    Outcome State Fault Refusal :=
  runEvex .f9 s d rm m (evexLen rm true) fun src => permImm .v256 src imm8

/-- F10 (R114). -/
def execEvexImm512 (d : BitVec 5) (rm : EvexRM) (m : WriteMask) (imm8 : BitVec 8) (s : State) :
    Outcome State Fault Refusal :=
  runEvex .f10 s d rm m (evexLen rm true) fun src => permImm .v512 src imm8

end Sys2Proof.Machine
end

