-- ==== Sys2Proof/Machine/VariableForms.lean ====
section
/-! DEFINITION. The five variable-control forms (41_vpermilps_variable.md R105 to R109): the `r/m` operand holds the
controls, the register `s1` the data. -/

namespace Sys2Proof.Machine

open Host (Outcome)

/-- F1 (R105). -/
def execVexVar128 (d s1 : BitVec 4) (rm : VexRM) (s : State) : Outcome State Fault Refusal :=
  runVex .f1 s d rm (vexLen rm false) fun ctl => permVar .v128 (readVL s .v128 (s1.setWidth 5)) ctl

/-- F3 (R106). -/
def execVexVar256 (d s1 : BitVec 4) (rm : VexRM) (s : State) : Outcome State Fault Refusal :=
  runVex .f3 s d rm (vexLen rm false) fun ctl => permVar .v256 (readVL s .v256 (s1.setWidth 5)) ctl

/-- F5 (R107). -/
def execEvexVar128 (d s1 : BitVec 5) (rm : EvexRM) (m : WriteMask) (s : State) : Outcome State Fault Refusal :=
  runEvex .f5 s d rm m (evexLen rm false) fun ctl => permVar .v128 (readVL s .v128 s1) ctl

/-- F6 (R108). -/
def execEvexVar256 (d s1 : BitVec 5) (rm : EvexRM) (m : WriteMask) (s : State) : Outcome State Fault Refusal :=
  runEvex .f6 s d rm m (evexLen rm false) fun ctl => permVar .v256 (readVL s .v256 s1) ctl

/-- F7 (R109). -/
def execEvexVar512 (d s1 : BitVec 5) (rm : EvexRM) (m : WriteMask) (s : State) : Outcome State Fault Refusal :=
  runEvex .f7 s d rm m (evexLen rm false) fun ctl => permVar .v512 (readVL s .v512 s1) ctl

end Sys2Proof.Machine
end

