-- ==== Sys2Proof/Machine/Dispatch.lean ====
section
/-! DEFINITION. The one match from instructions to their meanings. -/

namespace Sys2Proof.Machine

def exec (i : Instr) (s : State) : Host.Outcome State Fault Refusal :=
  match i with
  | .vexVar128 d s1 rm => Sys2Proof.Machine.execVexVar128 d s1 rm s
  | .vexImm128 d rm imm8 => Sys2Proof.Machine.execVexImm128 d rm imm8 s
  | .vexVar256 d s1 rm => Sys2Proof.Machine.execVexVar256 d s1 rm s
  | .vexImm256 d rm imm8 => Sys2Proof.Machine.execVexImm256 d rm imm8 s
  | .evexVar128 d s1 rm m => Sys2Proof.Machine.execEvexVar128 d s1 rm m s
  | .evexVar256 d s1 rm m => Sys2Proof.Machine.execEvexVar256 d s1 rm m s
  | .evexVar512 d s1 rm m => Sys2Proof.Machine.execEvexVar512 d s1 rm m s
  | .evexImm128 d rm m imm8 => Sys2Proof.Machine.execEvexImm128 d rm m imm8 s
  | .evexImm256 d rm m imm8 => Sys2Proof.Machine.execEvexImm256 d rm m imm8 s
  | .evexImm512 d rm m imm8 => Sys2Proof.Machine.execEvexImm512 d rm m imm8 s

end Sys2Proof.Machine
end

