-- ==== Sys2Proof/Machine/Launch.lean ====
section
/-! DEFINITION. The launch: what software outside the spec must have done before the instruction can run
(70_reset_and_hazards.md R143; log 23). No instruction uses these operations. -/

namespace Sys2Proof.Machine

/-- Steps 1 to 5 of R143: 64-bit mode, `CR4.OSXSAVE`, `XCR0` bits 0, 1, 2, 5, 6 and 7, `CR0.TS` = 0. Only these bits
change. -/
def launchEnable (s : State) : State :=
  { s with
    cr0    := (s.cr0 ||| 1#64) &&& ~~~(8#64)
    cr4    := s.cr4 ||| (1#64 <<< 18)
    xcr0   := s.xcr0 ||| 0xE7#64
    rflags := s.rflags &&& ~~~(1#64 <<< 17)
    efer   := s.efer ||| (1#64 <<< 10)
    csL    := true }

/-- Takes away every clause of `Mem` and every device window that touches the addresses `a` to `a+n-1`. -/
def clearRange (s : State) (a n : Nat) : State :=
  { s with mem := { s.mem with
      faults  := s.mem.faults.filter fun r => decide (r.last < a ∨ a + n ≤ r.first)
      devices := s.mem.devices.filter fun w => decide (w.last < a ∨ a + n ≤ w.first) } }

/-- Lists a zero byte for every address from `a` to `a+n-1` that has none. -/
def mapZeros : List Host.Cell → Nat → Nat → List Host.Cell
  | cs, _, 0 => cs
  | cs, a, n + 1 =>
    mapZeros (if a < 2 ^ 64 ∧ cellAt cs a = none then putCell cs a 0 else cs) (a + 1) n

/-- Makes the operand of `n` bytes at `ea` readable (step 6 of R143). -/
def mapOperand (s : State) (ea : Word) (n : Nat) : State :=
  let t := clearRange s ea.toNat n
  { t with mem := { t.mem with cells := mapZeros t.mem.cells ea.toNat n } }

/-- A memory operand: its addressing form, the factor of its displacement byte (30_encoding.md R76) and the number of
bytes read (20_memory.md R35). -/
structure MemOperand where
  addr   : Addr
  factor : Nat
  bytes  : Nat
deriving DecidableEq, Repr

/-- The memory operand of a VEX form: its displacement byte is not scaled. -/
def VexRM.operand (vl : VL) : VexRM → Option MemOperand
  | .reg _ => none
  | .mem a => some ⟨a, 1, vl.bytes⟩

/-- The memory operand of an EVEX form: its displacement byte is scaled by the number of bytes read. -/
def EvexRM.operand (vl : VL) : EvexRM → Option MemOperand
  | .reg _      => none
  | .mem a bcst => some ⟨a, evexBytes vl bcst, evexBytes vl bcst⟩

/-- The memory operand of an instruction, if it has one (20_memory.md R34, R35). -/
def operandOf : Instr → Option MemOperand
  | .vexVar128 _ _ rm    => VexRM.operand .v128 rm
  | .vexImm128 _ rm _    => VexRM.operand .v128 rm
  | .vexVar256 _ _ rm    => VexRM.operand .v256 rm
  | .vexImm256 _ rm _    => VexRM.operand .v256 rm
  | .evexVar128 _ _ rm _ => EvexRM.operand .v128 rm
  | .evexVar256 _ _ rm _ => EvexRM.operand .v256 rm
  | .evexVar512 _ _ rm _ => EvexRM.operand .v512 rm
  | .evexImm128 _ rm _ _ => EvexRM.operand .v128 rm
  | .evexImm256 _ rm _ _ => EvexRM.operand .v256 rm
  | .evexImm512 _ rm _ _ => EvexRM.operand .v512 rm

/-- The address and the size of an instruction's memory operand, if it has one (20_memory.md R35). -/
def operandRange (s : State) (i : Instr) : Option (Word × Nat) :=
  match operandOf i with
  | none => none
  | some o => some (effAddr s (BitVec.ofNat 64 o.factor) (instrLen i) o.addr, o.bytes)

/-- Makes the memory operand of an instruction readable, if it has one. -/
def mapOperandOf (s : State) : Option Instr → State
  | none => s
  | some i =>
    match operandRange s i with
    | none => s
    | some (ea, n) => mapOperand s ea n

/-- Places instruction bytes at `rip` where they can be fetched (step 6 of R143). -/
def placeCode (s : State) (bs : List Byte) : State :=
  memWrite (clearRange s s.rip.toNat bs.length) s.rip.toNat bs

end Sys2Proof.Machine
end

