-- ==== Sys2Proof/Machine/Step.lean ====
section
/-! DEFINITION. One step of the machine: fetch, decode, execute (40_vpermilps_common.md R94). -/

namespace Sys2Proof.Machine

/-- Outside 64-bit mode the step is refused (D4; log 9). In 64-bit mode the bytes at `rip` are fetched and decoded
(30_encoding.md R80); a byte the decoder needs and cannot have ends the step as the fetch does (R129 row 1); a form runs
by its meaning. -/
def step (s : State) : Host.Outcome State Fault Refusal :=
  if !s.mode64 then .refused .not64BitMode
  else
    match fetchDecode s with
    | .instr i _    => exec i s
    | .ud           => raise .ud
    | .legacyPrefix => .refused .legacyPrefix
    | .notThis      => .refused .notVpermilps
    | .more         => fetchStop s fetchLimit s.rip.toNat

/-- The launch of one table word (log 23): enabling state, the word's bytes at `rip`, its memory operand readable. -/
def State.withFetchWord (s : State) (nbits w : Nat) : State :=
  mapOperandOf (placeCode (launchEnable s) (tableBytes nbits w)) (decodeTableWord nbits w)

end Sys2Proof.Machine
end

