-- ==== Sys2Proof/Machine/Intrinsics.lean ====
section
/-! DEFINITION. The eighteen compiler intrinsics (43_intrinsics.md R115, R116) as functions of their arguments. No rule
of the machine depends on them (D25; log 26). -/

namespace Sys2Proof.Machine

/-- The prototypes of R115, in its order; the leading underscore of the C name is left out. -/
inductive Intrinsic where
  | mm512_permute_ps | mm512_mask_permute_ps | mm512_maskz_permute_ps
  | mm256_mask_permute_ps | mm256_maskz_permute_ps
  | mm_mask_permute_ps | mm_maskz_permute_ps
  | mm512_permutevar_ps | mm512_mask_permutevar_ps | mm512_maskz_permutevar_ps
  | mm256_mask_permutevar_ps | mm256_maskz_permutevar_ps
  | mm_mask_permutevar_ps | mm_maskz_permutevar_ps
  | mm_permute_ps | mm256_permute_ps | mm_permutevar_ps | mm256_permutevar_ps
deriving DecidableEq, Repr

/-- The last column of R115. -/
inductive IntrinsicMasking where
  | none
  | merging
  | zeroing
deriving DecidableEq, Repr

/-- The forms an intrinsic maps to (R115): the first, and the unmasked EVEX form that serves as well. -/
def intrinsicForms : Intrinsic → List Form
  | .mm512_permute_ps | .mm512_mask_permute_ps | .mm512_maskz_permute_ps => [.f10]
  | .mm256_mask_permute_ps | .mm256_maskz_permute_ps => [.f9]
  | .mm_mask_permute_ps | .mm_maskz_permute_ps => [.f8]
  | .mm512_permutevar_ps | .mm512_mask_permutevar_ps | .mm512_maskz_permutevar_ps => [.f7]
  | .mm256_mask_permutevar_ps | .mm256_maskz_permutevar_ps => [.f6]
  | .mm_mask_permutevar_ps | .mm_maskz_permutevar_ps => [.f5]
  | .mm_permute_ps => [.f2, .f8]
  | .mm256_permute_ps => [.f4, .f9]
  | .mm_permutevar_ps => [.f1, .f5]
  | .mm256_permutevar_ps => [.f3, .f6]

/-- The masking column of R115. -/
def intrinsicMasking : Intrinsic → IntrinsicMasking
  | .mm512_permute_ps | .mm512_permutevar_ps | .mm_permute_ps | .mm256_permute_ps | .mm_permutevar_ps
  | .mm256_permutevar_ps => .none
  | .mm512_mask_permute_ps | .mm256_mask_permute_ps | .mm_mask_permute_ps | .mm512_mask_permutevar_ps
  | .mm256_mask_permutevar_ps | .mm_mask_permutevar_ps => .merging
  | .mm512_maskz_permute_ps | .mm256_maskz_permute_ps | .mm_maskz_permute_ps | .mm512_maskz_permutevar_ps
  | .mm256_maskz_permutevar_ps | .mm_maskz_permutevar_ps => .zeroing

/-- The vector length of an intrinsic: that of `__m128`, `__m256` or `__m512` (R115). -/
def intrinsicVL (i : Intrinsic) : VL :=
  match intrinsicForms i with
  | f :: _ => f.vl
  | [] => .v128

/-- Whether the controls are a vector (`permutevar`) or an `int` (`permute`) (R115). -/
def intrinsicIsVar : Intrinsic → Bool
  | .mm512_permutevar_ps | .mm512_mask_permutevar_ps | .mm512_maskz_permutevar_ps | .mm256_mask_permutevar_ps
  | .mm256_maskz_permutevar_ps | .mm_mask_permutevar_ps | .mm_maskz_permutevar_ps | .mm_permutevar_ps
  | .mm256_permutevar_ps => true
  | .mm512_permute_ps | .mm512_mask_permute_ps | .mm512_maskz_permute_ps | .mm256_mask_permute_ps
  | .mm256_maskz_permute_ps | .mm_mask_permute_ps | .mm_maskz_permute_ps | .mm_permute_ps | .mm256_permute_ps => false

/-- The arguments of an intrinsic by their names in R116; an intrinsic reads only those its prototype has. -/
structure IntrinsicArgs where
  /-- `a`, the data vector. -/
  a   : Vec
  /-- `i` or the vector `control`, the control vector. -/
  ctl : Vec
  /-- `imm` or the `int control`; only its low 8 bits can be encoded. -/
  imm : BitVec 32
  /-- `s`, the destination before the instruction. -/
  s   : Vec
  /-- `k`, the writemask, bit `j` for element `j`. -/
  k   : BitVec 16
deriving DecidableEq, Repr

/-- The return value: bits `VL-1:0` of the destination afterwards (R116). -/
def intrinsicValue (i : Intrinsic) (x : IntrinsicArgs) : Vec :=
  let vl := intrinsicVL i
  let a := lowBits vl.bits x.a
  let tmp := if intrinsicIsVar i then permVar vl a (lowBits vl.bits x.ctl) else permImm vl a (x.imm.extractLsb' 0 8)
  match intrinsicMasking i with
  | .none => tmp
  | .merging => applyMask vl (lowBits vl.bits x.s) tmp (x.k.setWidth 64) ⟨1, false⟩
  | .zeroing => applyMask vl (lowBits vl.bits x.s) tmp (x.k.setWidth 64) ⟨1, true⟩

end Sys2Proof.Machine
end

