-- ==== Sys2Proof/Safety.lean ====
section
/-! DEFINITION. The terms claims use: the invariant, readable operands, code in memory, and where a run ends
(70_reset_and_hazards.md R149). -/

namespace Sys2Proof.Machine

open Host (Outcome)

/-- AVX512VL implies AVX512F implies AVX (D24; 00_scope.md R9). -/
def configOk (c : Config) : Bool := (!c.hasAVX512VL || c.hasAVX512F) && (!c.hasAVX512F || c.hasAVX)

/-- What the machine's containers must hold to stand for the machine's registers: every vector register has its
`MAXVL` bits and zeros above, a register numbered `NVEC` or more does not exist and is 0, every opmask register has its
`KWIDTH` bits and zeros above (R9, R17, R21), the flags imply each other (D24), memory has its canonical form. -/
structure Inv (s : State) : Prop where
  config   : configOk s.cfg = true
  width    : ∀ n : BitVec 5, readV s n = s.v[n.toNat]'n.isLt
  absent   : ∀ n : BitVec 5, nvec s.cfg ≤ n.toNat → s.v[n.toNat]'n.isLt = 0
  maskBits : ∀ n : BitVec 3, readK s n = s.k[n.toNat]'n.isLt
  memory   : s.mem.wf = true

/-- The `n` bytes at `a` can be read as data and are the bytes of the list. -/
def dataBytes (s : State) (a : Nat) (bs : List Byte) : Prop :=
  ∀ m (h : m < bs.length), byteAt s .data (a + m) = .next bs[m]

/-- The operand of `n` bytes at `ea` is outside the situations the model refuses: no alignment check (20_memory.md
R42), no wrap (R48), no device (R44). -/
def operandAdmitted (s : State) (ea : Word) (n : Nat) : Bool :=
  !(s.alignmentChecked && ea.toNat % n != 0) && ea.toNat + n - 1 < 2 ^ 64 && !touchesDevice s ea.toNat n

/-- The effective-address sum of an instruction's memory operand stays below 2^64, or it has none (20_memory.md R48,
D22). -/
def operandInRange (s : State) (i : Instr) : Bool :=
  match operandOf i with
  | none => true
  | some o => addressInRange s o.factor (instrLen i) o.addr

/-- The bytes of the list stand as an admitted operand at the address with this effective-address sum, which stays below
2^64 and is taken modulo 2^64 (30_encoding.md R75; 20_memory.md R48). -/
def operandStands (s : State) (sum : Int) (bs : List Byte) : Prop :=
  sum < (2 ^ 64 : Nat) ∧ operandAdmitted s (BitVec.ofInt 64 sum) bs.length = true ∧
    dataBytes s (BitVec.ofInt 64 sum).toNat bs

/-- The value is that of the bytes, the lowest address in bits 7:0, zeros above (20_memory.md R38). -/
def holdsBytes (x : Vec) (bs : List Byte) : Prop :=
  x.toNat < 2 ^ (8 * bs.length) ∧ ∀ m (h : m < bs.length), x.extractLsb' (8 * m) 8 = bs[m]

/-- The bytes of the list stand at `a` and can be fetched. -/
def codeAt (s : State) (a : Nat) (bs : List Byte) : Prop :=
  ∀ m (h : m < bs.length), fetchByte s (a + m) = .next bs[m]

/-- Element `j` of the destination of a variable-control form before masking: the element of the same lane that the
control dword's low two bits name (40_vpermilps_common.md R89). -/
def varSource (src ctl : Vec) (j : Nat) : Dword := dword src (4 * (j / 4) + (dword ctl j).toNat % 4)

/-- Element `j` of the destination of an immediate-control form before masking: the element of the same lane that the
field `imm8[2p+1:2p]` names (R90). -/
def immSource (src : Vec) (imm8 : BitVec 8) (j : Nat) : Dword :=
  dword src (4 * (j / 4) + imm8.toNat / 4 ^ (j % 4) % 4)

/-- The destination register of an instruction (operand 1). -/
def destOf : Instr → BitVec 5
  | .vexVar128 d _ _    => d.setWidth 5
  | .vexImm128 d _ _    => d.setWidth 5
  | .vexVar256 d _ _    => d.setWidth 5
  | .vexImm256 d _ _    => d.setWidth 5
  | .evexVar128 d _ _ _ => d
  | .evexVar256 d _ _ _ => d
  | .evexVar512 d _ _ _ => d
  | .evexImm128 d _ _ _ => d
  | .evexImm256 d _ _ _ => d
  | .evexImm512 d _ _ _ => d

/-- The broadcast bit `EVEX.b` of an instruction; the VEX forms have none (30_encoding.md R67). -/
def bcstOf : Instr → Bool
  | .vexVar128 ..        => false
  | .vexImm128 ..        => false
  | .vexVar256 ..        => false
  | .vexImm256 ..        => false
  | .evexVar128 _ _ rm _ => rm.bcst
  | .evexVar256 _ _ rm _ => rm.bcst
  | .evexVar512 _ _ rm _ => rm.bcst
  | .evexImm128 _ rm _ _ => rm.bcst
  | .evexImm256 _ rm _ _ => rm.bcst
  | .evexImm512 _ rm _ _ => rm.bcst

/-- The `r/m` operands of a VEX form of length `len` and of an EVEX form of length `len'` and vector length `n` bytes are
the same operand: the same register, or full memory operands with the same effective-address sum (40_vpermilps_common.md
R104; 30_encoding.md R75, R76). -/
def sameOperand (s : State) (n len len' : Nat) : VexRM → EvexRM → Prop
  | .reg m, .reg m'       => m' = m.setWidth 5
  | .mem a, .mem a' bcst  => bcst = false ∧ addrInt s 1 len a = addrInt s n len' a'
  | .reg _, .mem _ _      => False
  | .mem _, .reg _        => False

/-- Whether the `r/m` operand is a register (`mod` = 11b), so that the instruction reads no memory (R69). -/
def registerOnly : Instr → Bool
  | .vexVar128 _ _ rm    => match rm with | .reg _ => true | .mem _ => false
  | .vexImm128 _ rm _    => match rm with | .reg _ => true | .mem _ => false
  | .vexVar256 _ _ rm    => match rm with | .reg _ => true | .mem _ => false
  | .vexImm256 _ rm _    => match rm with | .reg _ => true | .mem _ => false
  | .evexVar128 _ _ rm _ => match rm with | .reg _ => true | .mem _ _ => false
  | .evexVar256 _ _ rm _ => match rm with | .reg _ => true | .mem _ _ => false
  | .evexVar512 _ _ rm _ => match rm with | .reg _ => true | .mem _ _ => false
  | .evexImm128 _ rm _ _ => match rm with | .reg _ => true | .mem _ _ => false
  | .evexImm256 _ rm _ _ => match rm with | .reg _ => true | .mem _ _ => false
  | .evexImm512 _ rm _ _ => match rm with | .reg _ => true | .mem _ _ => false

/-- The masking fields of an instruction; the VEX forms have no writemask (10_state.md R22). -/
def maskOf : Instr → WriteMask
  | .vexVar128 ..       => ⟨0, false⟩
  | .vexImm128 ..       => ⟨0, false⟩
  | .vexVar256 ..       => ⟨0, false⟩
  | .vexImm256 ..       => ⟨0, false⟩
  | .evexVar128 _ _ _ m => m
  | .evexVar256 _ _ _ m => m
  | .evexVar512 _ _ _ m => m
  | .evexImm128 _ _ m _ => m
  | .evexImm256 _ _ m _ => m
  | .evexImm512 _ _ m _ => m

/-- The `r/m` operand of an instruction, as `FetchRM` gives it (40_vpermilps_common.md R91). -/
def fetchOf (i : Instr) (s : State) : Outcome Vec Fault Refusal :=
  match i with
  | .vexVar128 _ _ rm    => fetchVexRM s .v128 (instrLen i) rm
  | .vexImm128 _ rm _    => fetchVexRM s .v128 (instrLen i) rm
  | .vexVar256 _ _ rm    => fetchVexRM s .v256 (instrLen i) rm
  | .vexImm256 _ rm _    => fetchVexRM s .v256 (instrLen i) rm
  | .evexVar128 _ _ rm _ => fetchEvexRM s .v128 (instrLen i) rm
  | .evexVar256 _ _ rm _ => fetchEvexRM s .v256 (instrLen i) rm
  | .evexVar512 _ _ rm _ => fetchEvexRM s .v512 (instrLen i) rm
  | .evexImm128 _ rm _ _ => fetchEvexRM s .v128 (instrLen i) rm
  | .evexImm256 _ rm _ _ => fetchEvexRM s .v256 (instrLen i) rm
  | .evexImm512 _ rm _ _ => fetchEvexRM s .v512 (instrLen i) rm

/-- The register holds these `n` elements and zeros above. -/
def hasElements (x : Vec) (n : Nat) (f : Nat → Dword) : Prop := ∀ j < 16, dword x j = if j < n then f j else 0

/-- Element `j` of the destination of an EVEX form in terms of the permuted element `tmp`: no writemask or mask bit 1
takes it, mask bit 0 keeps the old element or gives 0 (R92). -/
def maskedElement (s : State) (d : BitVec 5) (m : WriteMask) (tmp : Dword) (j : Nat) : Dword :=
  if m.aaa = 0 ∨ (readK s m.aaa).getLsbD j = true then tmp else if m.z = true then 0 else dword (readV s d) j

/-- The same outcome with a function applied to the next state, if there is one. -/
def mapNext (f : State → State) : Outcome State Fault Refusal → Outcome State Fault Refusal
  | .next t    => .next (f t)
  | .fault e   => .fault e
  | .refused r => .refused r

/-- The intrinsic's value is what the instruction leaves in its destination. -/
def computes (i : Instr) (s : State) (f : Intrinsic) (x : IntrinsicArgs) : Prop :=
  ∀ t, exec i s = .next t → readV t (destOf i) = intrinsicValue f x

/-! ### Runs (R149; 95_test_vectors.md section 4) -/

/-- How a run ends, with the state it ends in; `unfinished` when the fuel is used up first. -/
inductive RunEnd where
  | done (s : State)
  | fault (f : Fault) (s : State)
  | refused (r : Refusal) (s : State)
  | unfinished (s : State)
deriving DecidableEq, Repr

/-- Runs to the end address: `Done` when `rip = Aend`, else the first exception or refusal, with the state that the
instruction left unchanged (R131, R149). The bytes at `Aend` are not decoded (D26). -/
def runTo (aend : Word) : Nat → State → RunEnd
  | fuel, s =>
    if s.rip = aend then .done s
    else
      match fuel with
      | 0 => .unfinished s
      | n + 1 =>
        match step s with
        | .next t => runTo aend n t
        | .fault f => .fault f s
        | .refused r => .refused r s

/-- The bytes of a straight-line program (R149). -/
def programBytes (is : List Instr) : List Byte := (is.map encode).flatten

end Sys2Proof.Machine
end

