-- ==== Sys2Proof/Certificates/Slice0/Obligations.lean ====
section
/-! DEFINITION. The statements for the provers. Each docstring names the rule of spec/ it formalises, or says that it
is the model's own choice. Nothing is proved here. -/

open Sys2Proof Sys2Proof.Machine

/-! ### Encoding and decoding -/

/-- R55 to R79: the decoder reads an encoded well-formed instruction back, whatever bytes follow it. -/
def Obligations.DecodeReadsEncodeBack : Prop :=
  ∀ (i : Instr) (rest : List Byte), i.wf = true → decode (encode i ++ rest) = .instr i rest

/-- R79, R80: what the decoder answers is a well-formed instruction, it uses exactly `len` bytes, and the encoder's
bytes for it decode to the same instruction. -/
def Obligations.DecodedInstructionUsesItsLength : Prop :=
  ∀ (bs rest : List Byte) (i : Instr), decode bs = .instr i rest →
    i.wf = true ∧ (∃ used, bs = used ++ rest ∧ used.length = instrLen i) ∧ decode (encode i) = .instr i []

/-- R79: the longest instruction has 12 bytes, so with 12 bytes the decoder always answers. -/
def Obligations.TwelveBytesAlwaysDecode : Prop :=
  ∀ bs : List Byte, 12 ≤ bs.length → decode bs ≠ .more

/-- R80: the answer for given bytes does not change when more bytes follow them, but for the bytes left over. -/
def Obligations.DecoderReadsNoFurther : Prop :=
  ∀ (bs more : List Byte),
    (∀ i rest, decode bs = .instr i rest → decode (bs ++ more) = .instr i (rest ++ more)) ∧
    (decode bs = .ud → decode (bs ++ more) = .ud) ∧
    (decode bs = .legacyPrefix → decode (bs ++ more) = .legacyPrefix) ∧
    (decode bs = .notThis → decode (bs ++ more) = .notThis)

/-- 95_test_vectors.md 3.1: three words written out from the encoding rules R61, R64 decode to their instructions. -/
def Obligations.WrittenWordsDecode : Prop :=
  decode [0xC4, 0xE2, 0x69, 0x0C, 0xCB] = .instr (.vexVar128 1 2 (.reg 3)) [] ∧
  decode [0x62, 0x02, 0x0D, 0x40, 0x0C, 0xEF] = .instr (.evexVar512 29 30 (.reg 31) ⟨0, false⟩) [] ∧
  decode [0x62, 0xE3, 0x7D, 0x9A, 0x04, 0x48, 0x10, 0x1B] =
    .instr (.evexImm128 17 (.mem (.base 0 (.d8 0x10)) true) ⟨2, true⟩ 0x1B) []

/-! ### The step, and the encodings that fault -/

/-- R80, R94: when the bytes fetched at `rip` decode to an instruction, the step is that instruction's meaning. -/
def Obligations.StepRunsDecodedInstruction : Prop :=
  ∀ (s : State) (i : Instr) (rest : List Byte), s.mode64 = true → fetchDecode s = .instr i rest →
    step s = exec i s

/-- R52, R80, R94: when the encoding of a well-formed instruction stands in memory at `rip` and can be fetched, the
step is that instruction's meaning. -/
def Obligations.StepRunsEncodedInstruction : Prop :=
  ∀ (s : State) (i : Instr), s.mode64 = true → i.wf = true → codeAt s s.rip.toNat (encode i) → step s = exec i s

/-- R62: an encoding that is otherwise one of F1 to F4 but has `W` = 1 raises `#UD`, whatever follows its opcode
byte. -/
def Obligations.VexWSetIsUndefined : Prop :=
  ∀ (s : State) (b1 b2 op : Byte), s.mode64 = true → codeAt s s.rip.toNat [0xC4, b1, b2, op] →
    b2.extractLsb' 0 2 = 1#2 →
    (b1.extractLsb' 0 5 = 2#5 ∧ op = 0x0C ∨ b1.extractLsb' 0 5 = 3#5 ∧ op = 0x04) →
    b2.getLsbD 7 = true → step s = .fault .ud

/-- R78, R119 (b): an immediate-control form whose stored `vvvv` is not 1111b raises `#UD`, VEX and EVEX alike. That an
EVEX one whose stored `V̄'` is 0 does so too is the spec's decision D13 (log 18). -/
def Obligations.ImmediateFormNeedsAllOnesVvvv : Prop :=
  ∀ s : State, s.mode64 = true →
    (∀ b1 b2 : Byte, codeAt s s.rip.toNat [0xC4, b1, b2, 0x04] → b1.extractLsb' 0 5 = 3#5 →
      b2.extractLsb' 0 2 = 1#2 → b2.extractLsb' 3 4 ≠ 15#4 → step s = .fault .ud) ∧
    (∀ p0 p1 p2 : Byte, codeAt s s.rip.toNat [0x62, p0, p1, p2, 0x04] → p0.extractLsb' 0 4 = 3#4 →
      p1.extractLsb' 0 3 = 5#3 → p1.extractLsb' 3 4 ≠ 15#4 ∨ p2.getLsbD 3 = false → step s = .fault .ud)

/-- R81 rows 3 to 6, the spec's decisions D13 and D14 (log 18): `W` = 1, `L'L` = 11b, `z` = 1 with `aaa` = 000b, and in the immediate
forms stored `V̄'` = 0, make an EVEX encoding of either opcode `#UD`. -/
def Obligations.ReservedEvexFieldsAreUndefined : Prop :=
  ∀ (s : State) (p0 p1 p2 op : Byte), s.mode64 = true → codeAt s s.rip.toNat [0x62, p0, p1, p2, op] →
    p1.extractLsb' 0 3 = 5#3 →
    (p0.extractLsb' 0 4 = 2#4 ∧ op = 0x0C ∨ p0.extractLsb' 0 4 = 3#4 ∧ op = 0x04) →
    (p1.getLsbD 7 = true ∨ p2.extractLsb' 5 2 = 3#2 ∨ (p2.getLsbD 7 = true ∧ p2.extractLsb' 0 3 = 0#3) ∨
      (op = 0x04 ∧ p2.getLsbD 3 = false)) →
    step s = .fault .ud

/-- R63, R81 row 8, by the spec's decision D13 (log 18): an EVEX prefix with `P0[3:2]` other than 00b or with `P1[2]` = 0
raises `#UD`, whatever its other bits and its opcode byte. -/
def Obligations.ReservedEvexBitsAreUndefined : Prop :=
  ∀ (s : State) (p0 p1 p2 op : Byte), s.mode64 = true → codeAt s s.rip.toNat [0x62, p0, p1, p2, op] →
    (p0.extractLsb' 2 2 ≠ 0#2 ∨ p1.getLsbD 2 = false) → step s = .fault .ud

/-- R67, R81 row 7: `b` = 1 with a register operand makes an EVEX encoding of either opcode `#UD`. That it is `#UD`, where
the source's pseudocode gives the bit no effect, is the spec's decision D13 (log 18). -/
def Obligations.BroadcastOfRegisterIsUndefined : Prop :=
  ∀ (s : State) (p0 p1 p2 op modrm : Byte), s.mode64 = true →
    codeAt s s.rip.toNat [0x62, p0, p1, p2, op, modrm] →
    p1.extractLsb' 0 3 = 5#3 →
    (p0.extractLsb' 0 4 = 2#4 ∧ op = 0x0C ∨ p0.extractLsb' 0 4 = 3#4 ∧ op = 0x04) →
    modrm.extractLsb' 6 2 = 3#2 → p2.getLsbD 4 = true → step s = .fault .ud

/-- R59, R80, by the spec's decision D21 (log 19): a forbidden byte directly before a VEX or EVEX prefix gives `#UD`, and
an allowed one as the first byte is refused, whatever follows it. -/
def Obligations.NoByteBeforeThePrefix : Prop :=
  ∀ s : State, s.mode64 = true →
    (∀ p e : Byte, codeAt s s.rip.toNat [p, e] →
      p ∈ ([0x66, 0xF2, 0xF3, 0xF0] : List Byte) ∨ (0x40 ≤ p.toNat ∧ p.toNat ≤ 0x4F) →
      e ∈ ([0xC4, 0xC5, 0x62] : List Byte) → step s = .fault .ud) ∧
    (∀ p : Byte, codeAt s s.rip.toNat [p] →
      p ∈ ([0x26, 0x2E, 0x36, 0x3E, 0x64, 0x65, 0x67] : List Byte) → step s = .refused .legacyPrefix)

/-- R80, R81 row 12: a VEX or an EVEX prefix with another `pp`, another map or another opcode byte, the two-byte VEX
prefix, any other first byte, and a forbidden byte that does not stand before C4H, C5H or 62H, are not VPERMILPS and are
refused. -/
def Obligations.OtherVexEncodingsAreRefused : Prop :=
  ∀ s : State, s.mode64 = true →
    (∀ b1 b2 op : Byte, codeAt s s.rip.toNat [0xC4, b1, b2, op] →
      b2.extractLsb' 0 2 ≠ 1#2 ∨
        ¬ (b1.extractLsb' 0 5 = 2#5 ∧ op = 0x0C ∨ b1.extractLsb' 0 5 = 3#5 ∧ op = 0x04) →
      step s = .refused .notVpermilps) ∧
    (codeAt s s.rip.toNat [0xC5] → step s = .refused .notVpermilps) ∧
    (∀ p0 p1 p2 op : Byte, codeAt s s.rip.toNat [0x62, p0, p1, p2, op] →
      p0.extractLsb' 2 2 = 0#2 → p1.getLsbD 2 = true →
      p1.extractLsb' 0 2 ≠ 1#2 ∨
        ¬ (p0.extractLsb' 0 2 = 2#2 ∧ op = 0x0C ∨ p0.extractLsb' 0 2 = 3#2 ∧ op = 0x04) →
      step s = .refused .notVpermilps) ∧
    (∀ b : Byte, codeAt s s.rip.toNat [b] →
      b ∉ ([0x66, 0xF2, 0xF3, 0xF0, 0x26, 0x2E, 0x36, 0x3E, 0x64, 0x65, 0x67, 0xC4, 0x62] : List Byte) →
      ¬ (0x40 ≤ b.toNat ∧ b.toNat ≤ 0x4F) → step s = .refused .notVpermilps) ∧
    (∀ p e : Byte, codeAt s s.rip.toNat [p, e] →
      p ∈ ([0x66, 0xF2, 0xF3, 0xF0] : List Byte) ∨ (0x40 ≤ p.toNat ∧ p.toNat ≤ 0x4F) →
      e ∉ ([0xC4, 0xC5, 0x62] : List Byte) → step s = .refused .notVpermilps)

/-- R129 row 1: a fault on fetching a byte that the decoder still needs is the step's outcome. -/
def Obligations.FetchFaultComesFirst : Prop :=
  ∀ (s : State) (bs : List Byte) (f : Fault), s.mode64 = true → codeAt s s.rip.toNat bs →
    fetchByte s (s.rip.toNat + bs.length) = .fault f → bs.length < 15 → decode bs = .more → step s = .fault f

/-- D4 (the model's reading, log 9): outside 64-bit mode no step has a meaning, and no form completes. -/
def Obligations.OnlySixtyFourBitModeRuns : Prop :=
  ∀ (s : State) (i : Instr), s.mode64 = false →
    step s = .refused .not64BitMode ∧ (exec i s = .fault .ud ∨ exec i s = .refused .not64BitMode)

/-! ### The state and capability conditions -/

/-- R123: each condition of `CheckUD` raises `#UD`, for every form and operand. -/
def Obligations.CheckUDRaisesUndefined : Prop :=
  ∀ (i : Instr) (s : State),
    (s.pe = false ∨ s.vm = true → exec i s = .fault .ud) ∧
    (s.mode64 = true →
      (s.osxsave = false ∨ s.xcr0SseAvx ≠ 3 ∨ (i.form.isEvex = true ∧ s.xcr0Avx512 ≠ 7) ∨
        (i.form ∈ [Form.f1, .f2, .f3, .f4] ∧ s.cfg.hasAVX = false) ∨
        (i.form ∈ [Form.f5, .f6, .f7, .f8, .f9, .f10] ∧ s.cfg.hasAVX512F = false) ∨
        (i.form ∈ [Form.f5, .f6, .f8, .f9] ∧ s.cfg.hasAVX512VL = false)) →
      exec i s = .fault .ud)

/-- R120: in 64-bit mode a form whose CPUID flags are not all present raises `#UD`, and no form completes without its
flags. -/
def Obligations.MissingCapabilityIsUndefined : Prop :=
  ∀ (i : Instr) (s : State),
    ¬ ((i.form ∈ [Form.f1, .f2, .f3, .f4] → s.cfg.hasAVX = true) ∧
       (i.form ∈ [Form.f7, .f10] → s.cfg.hasAVX512F = true) ∧
       (i.form ∈ [Form.f5, .f6, .f8, .f9] → s.cfg.hasAVX512F = true ∧ s.cfg.hasAVX512VL = true)) →
    (s.mode64 = true → exec i s = .fault .ud) ∧ ∀ t, exec i s ≠ .next t

/-- R124, R129: after the `#UD` checks pass, `CR0.TS` = 1 raises `#NM` for every form, with or without a memory
operand, whatever the operand's address. -/
def Obligations.TaskSwitchedRaisesNM : Prop :=
  ∀ (i : Instr) (s : State), s.mode64 = true → s.osxsave = true → s.xcr0SseAvx = 3 →
    (i.form.isEvex = true → s.xcr0Avx512 = 7) → capable i.form s.cfg = true → s.ts = true →
    exec i s = .fault .nm

/-- R142: when `Enabled` holds, the only fault is that of the memory operand. -/
def Obligations.EnabledFormFaultsOnlyOnItsOperand : Prop :=
  ∀ (i : Instr) (s : State) (f : Fault), enabled i.form s = true → (exec i s = .fault f ↔ fetchOf i s = .fault f)

/-- R127, R128: vector numbers, error codes and recorded values. -/
def Obligations.ExceptionRecords : Prop :=
  ∀ (s : State) (code : BitVec 32) (a : Word),
    exceptionRecord .ud s = ⟨6, none, s.rip, none⟩ ∧
    exceptionRecord .nm s = ⟨7, none, s.rip, none⟩ ∧
    exceptionRecord .ss s = ⟨12, some 0, s.rip, none⟩ ∧
    exceptionRecord .gp s = ⟨13, some 0, s.rip, none⟩ ∧
    exceptionRecord (.pf code a) s = ⟨14, some code, s.rip, some a⟩

/-! ### Completion -/

/-- R142: a register-operand form that is enabled always completes. -/
def Obligations.RegisterFormsComplete : Prop :=
  ∀ (i : Instr) (s : State), registerOnly i = true → enabled i.form s = true →
    s.rip.toNat + instrLen i < 2 ^ 64 → ∃ t, exec i s = .next t ∧ t.rip = s.rip + BitVec.ofNat 64 (instrLen i)

/-- R35, R41, R129 row 6: a form with a memory operand completes when it is enabled, every byte of the operand can be
read, and the operand is outside the situations of R42, R44 and R48, the effective-address sum of D22 (log 14) among
them. No alignment is asked for. -/
def Obligations.MemoryFormsComplete : Prop :=
  ∀ (i : Instr) (s : State) (ea : Word) (n : Nat), operandRange s i = some (ea, n) → enabled i.form s = true →
    s.rip.toNat + instrLen i < 2 ^ 64 → operandInRange s i = true → operandAdmitted s ea n = true →
    (∀ m < n, ∃ b, byteAt s .data (ea.toNat + m) = .next b) →
    ∃ t, exec i s = .next t ∧ t.rip = s.rip + BitVec.ofNat 64 (instrLen i)

/-- R105 (pseudocode): F1 writes the selected elements and clears the rest of the register. Here and in the next nine
statements the destination may also be a source; that all sources are read first is the spec's decision D11 (log 21). -/
def Obligations.VexVar128Result : Prop :=
  ∀ (d s1 : BitVec 4) (rm : VexRM) (s : State) (ctl : Vec), enabled .f1 s = true →
    s.rip.toNat + instrLen (.vexVar128 d s1 rm) < 2 ^ 64 →
    fetchVexRM s .v128 (instrLen (.vexVar128 d s1 rm)) rm = .next ctl →
    ∃ t, exec (.vexVar128 d s1 rm) s = .next t ∧
      hasElements (readV t (d.setWidth 5)) 4 (varSource (readV s (s1.setWidth 5)) ctl) ∧
      t.rip = s.rip + BitVec.ofNat 64 (instrLen (.vexVar128 d s1 rm))

/-- R106 (pseudocode): F3. -/
def Obligations.VexVar256Result : Prop :=
  ∀ (d s1 : BitVec 4) (rm : VexRM) (s : State) (ctl : Vec), enabled .f3 s = true →
    s.rip.toNat + instrLen (.vexVar256 d s1 rm) < 2 ^ 64 →
    fetchVexRM s .v256 (instrLen (.vexVar256 d s1 rm)) rm = .next ctl →
    ∃ t, exec (.vexVar256 d s1 rm) s = .next t ∧
      hasElements (readV t (d.setWidth 5)) 8 (varSource (readV s (s1.setWidth 5)) ctl) ∧
      t.rip = s.rip + BitVec.ofNat 64 (instrLen (.vexVar256 d s1 rm))

/-- R110 (pseudocode): F2. -/
def Obligations.VexImm128Result : Prop :=
  ∀ (d : BitVec 4) (rm : VexRM) (imm8 : BitVec 8) (s : State) (src : Vec), enabled .f2 s = true →
    s.rip.toNat + instrLen (.vexImm128 d rm imm8) < 2 ^ 64 →
    fetchVexRM s .v128 (instrLen (.vexImm128 d rm imm8)) rm = .next src →
    ∃ t, exec (.vexImm128 d rm imm8) s = .next t ∧
      hasElements (readV t (d.setWidth 5)) 4 (immSource src imm8) ∧
      t.rip = s.rip + BitVec.ofNat 64 (instrLen (.vexImm128 d rm imm8))

/-- R111 (pseudocode), with the upper bits cleared (90_conflicts.md C4, D12; log 20): F4. -/
def Obligations.VexImm256Result : Prop :=
  ∀ (d : BitVec 4) (rm : VexRM) (imm8 : BitVec 8) (s : State) (src : Vec), enabled .f4 s = true →
    s.rip.toNat + instrLen (.vexImm256 d rm imm8) < 2 ^ 64 →
    fetchVexRM s .v256 (instrLen (.vexImm256 d rm imm8)) rm = .next src →
    ∃ t, exec (.vexImm256 d rm imm8) s = .next t ∧
      hasElements (readV t (d.setWidth 5)) 8 (immSource src imm8) ∧
      t.rip = s.rip + BitVec.ofNat 64 (instrLen (.vexImm256 d rm imm8))

/-- R107 (pseudocode): F5, under the writemask, and the rest of the register cleared even when merging. -/
def Obligations.EvexVar128Result : Prop :=
  ∀ (d s1 : BitVec 5) (rm : EvexRM) (m : WriteMask) (s : State) (ctl : Vec), enabled .f5 s = true →
    s.rip.toNat + instrLen (.evexVar128 d s1 rm m) < 2 ^ 64 →
    fetchEvexRM s .v128 (instrLen (.evexVar128 d s1 rm m)) rm = .next ctl →
    ∃ t, exec (.evexVar128 d s1 rm m) s = .next t ∧
      hasElements (readV t d) 4 (fun j => maskedElement s d m (varSource (readV s s1) ctl j) j) ∧
      t.rip = s.rip + BitVec.ofNat 64 (instrLen (.evexVar128 d s1 rm m))

/-- R108 (pseudocode): F6. -/
def Obligations.EvexVar256Result : Prop :=
  ∀ (d s1 : BitVec 5) (rm : EvexRM) (m : WriteMask) (s : State) (ctl : Vec), enabled .f6 s = true →
    s.rip.toNat + instrLen (.evexVar256 d s1 rm m) < 2 ^ 64 →
    fetchEvexRM s .v256 (instrLen (.evexVar256 d s1 rm m)) rm = .next ctl →
    ∃ t, exec (.evexVar256 d s1 rm m) s = .next t ∧
      hasElements (readV t d) 8 (fun j => maskedElement s d m (varSource (readV s s1) ctl j) j) ∧
      t.rip = s.rip + BitVec.ofNat 64 (instrLen (.evexVar256 d s1 rm m))

/-- R109 (pseudocode): F7. -/
def Obligations.EvexVar512Result : Prop :=
  ∀ (d s1 : BitVec 5) (rm : EvexRM) (m : WriteMask) (s : State) (ctl : Vec), enabled .f7 s = true →
    s.rip.toNat + instrLen (.evexVar512 d s1 rm m) < 2 ^ 64 →
    fetchEvexRM s .v512 (instrLen (.evexVar512 d s1 rm m)) rm = .next ctl →
    ∃ t, exec (.evexVar512 d s1 rm m) s = .next t ∧
      hasElements (readV t d) 16 (fun j => maskedElement s d m (varSource (readV s s1) ctl j) j) ∧
      t.rip = s.rip + BitVec.ofNat 64 (instrLen (.evexVar512 d s1 rm m))

/-- R112 (pseudocode): F8. -/
def Obligations.EvexImm128Result : Prop :=
  ∀ (d : BitVec 5) (rm : EvexRM) (m : WriteMask) (imm8 : BitVec 8) (s : State) (src : Vec), enabled .f8 s = true →
    s.rip.toNat + instrLen (.evexImm128 d rm m imm8) < 2 ^ 64 →
    fetchEvexRM s .v128 (instrLen (.evexImm128 d rm m imm8)) rm = .next src →
    ∃ t, exec (.evexImm128 d rm m imm8) s = .next t ∧
      hasElements (readV t d) 4 (fun j => maskedElement s d m (immSource src imm8 j) j) ∧
      t.rip = s.rip + BitVec.ofNat 64 (instrLen (.evexImm128 d rm m imm8))

/-- R113 (pseudocode): F9. -/
def Obligations.EvexImm256Result : Prop :=
  ∀ (d : BitVec 5) (rm : EvexRM) (m : WriteMask) (imm8 : BitVec 8) (s : State) (src : Vec), enabled .f9 s = true →
    s.rip.toNat + instrLen (.evexImm256 d rm m imm8) < 2 ^ 64 →
    fetchEvexRM s .v256 (instrLen (.evexImm256 d rm m imm8)) rm = .next src →
    ∃ t, exec (.evexImm256 d rm m imm8) s = .next t ∧
      hasElements (readV t d) 8 (fun j => maskedElement s d m (immSource src imm8 j) j) ∧
      t.rip = s.rip + BitVec.ofNat 64 (instrLen (.evexImm256 d rm m imm8))

/-- R114 (pseudocode): F10. -/
def Obligations.EvexImm512Result : Prop :=
  ∀ (d : BitVec 5) (rm : EvexRM) (m : WriteMask) (imm8 : BitVec 8) (s : State) (src : Vec), enabled .f10 s = true →
    s.rip.toNat + instrLen (.evexImm512 d rm m imm8) < 2 ^ 64 →
    fetchEvexRM s .v512 (instrLen (.evexImm512 d rm m imm8)) rm = .next src →
    ∃ t, exec (.evexImm512 d rm m imm8) s = .next t ∧
      hasElements (readV t d) 16 (fun j => maskedElement s d m (immSource src imm8 j) j) ∧
      t.rip = s.rip + BitVec.ofNat 64 (instrLen (.evexImm512 d rm m imm8))

/-! ### The frame -/

/-- R31: a form that completes writes the destination register and `rip`, and nothing else: every other vector
register, every opmask and general register, every flag, control and status register, the configuration and every
byte of memory are as before. -/
def Obligations.CompletingFormFrame : Prop :=
  ∀ (i : Instr) (s t : State), exec i s = .next t →
    (∀ n, n ≠ destOf i → readV t n = readV s n) ∧ (∀ n, readK t n = readK s n) ∧ (∀ n, readG t n = readG s n) ∧
    t.rflags = s.rflags ∧ t.mxcsr = s.mxcsr ∧ t.cr0 = s.cr0 ∧ t.cr2 = s.cr2 ∧ t.cr4 = s.cr4 ∧ t.xcr0 = s.xcr0 ∧
    t.efer = s.efer ∧ t.csL = s.csL ∧ t.csBase = s.csBase ∧ t.cpl = s.cpl ∧ t.cfg = s.cfg ∧
    (∀ acc a, byteAt t acc a = byteAt s acc a) ∧ t.mem.devices = s.mem.devices

/-- R95: a form that completes advances the instruction pointer past itself. -/
def Obligations.CompletingFormAdvancesRip : Prop :=
  ∀ (i : Instr) (s t : State), exec i s = .next t → t.rip.toNat = s.rip.toNat + (encode i).length

/-- R54: the instruction never writes memory: every byte reads as before, for data and for fetch. -/
def Obligations.NoStepWritesMemory : Prop :=
  ∀ s t : State, step s = .next t → t.mem = s.mem ∧ ∀ acc a, byteAt t acc a = byteAt s acc a

/-- R20, R93: every form that completes clears its destination above `VL`. For F4 this is the spec's choice
(90_conflicts.md C4, D12; log 20). -/
def Obligations.UpperElementsCleared : Prop :=
  ∀ (i : Instr) (s t : State), exec i s = .next t →
    ∀ j, i.form.vl.kl ≤ j → dword (readV t (destOf i)) j = 0

/-- R26: `MXCSR` is neither read nor written: with another value in it every outcome is the same but for that
value. -/
def Obligations.MxcsrHasNoEffect : Prop :=
  ∀ (i : Instr) (s : State) (x : BitVec 32),
    exec i { s with mxcsr := x } = mapNext (fun t => { t with mxcsr := x }) (exec i s)

/-- R137: a form that reads no memory executes identically at every privilege level. -/
def Obligations.PrivilegeLevelHasNoEffect : Prop :=
  ∀ (i : Instr) (s : State) (p : BitVec 2), registerOnly i = true →
    exec i { s with cpl := p } = mapNext (fun t => { t with cpl := p }) (exec i s)

/-- R21, R22: the instruction reads bits `KL-1:0` of the opmask register that `aaa` selects and no others, and none
at all with `aaa` = 000b or in a VEX form. -/
def Obligations.OnlyTheSelectedMaskBitsAreRead : Prop :=
  ∀ (i : Instr) (s : State) (k : Vector Word 8),
    ((maskOf i).aaa ≠ 0 → ∀ j < i.form.vl.kl,
      (readK { s with k := k } (maskOf i).aaa).getLsbD j = (readK s (maskOf i).aaa).getLsbD j) →
    exec i { s with k := k } = mapNext (fun t => { t with k := k }) (exec i s)

/-! ### Permutations -/

/-- R103: identity, the four copies, the half swap, the pair swap and the reversal of `PermImm`. -/
def Obligations.PermImmNamedControls : Prop :=
  ∀ (vl : VL) (x : Vec),
    permImm vl x 0xE4 = lowBits vl.bits x ∧
    (∀ j < vl.kl, dword (permImm vl x 0x00) j = dword x (4 * (j / 4)) ∧
      dword (permImm vl x 0x55) j = dword x (4 * (j / 4) + 1) ∧
      dword (permImm vl x 0xAA) j = dword x (4 * (j / 4) + 2) ∧
      dword (permImm vl x 0xFF) j = dword x (4 * (j / 4) + 3)) ∧
    (∀ j < vl.kl, dword (permImm vl x 0x1B) j = dword x (4 * (j / 4) + (3 - j % 4)) ∧
      dword (permImm vl x 0x4E) j = dword x (4 * (j / 4) + (j % 4 + 2) % 4) ∧
      dword (permImm vl x 0xB1) j = dword x (4 * (j / 4) + (j % 4 / 2 * 2 + (1 - j % 2)))) ∧
    permImm vl (permImm vl x 0x1B) 0x1B = lowBits vl.bits x

/-- R103, last bullets: two immediate permutations compose to the one whose field `p` is the field of the first that
field `p` of the second names. -/
def Obligations.PermImmComposes : Prop :=
  ∀ (vl : VL) (x : Vec) (a b c : BitVec 8),
    (∀ p < 4, c.extractLsb' (2 * p) 2 = a.extractLsb' (2 * (b.extractLsb' (2 * p) 2).toNat) 2) →
    permImm vl (permImm vl x a) b = permImm vl x c

/-- R90: `PermImm(src, imm8, VL)` is `PermVar(src, ctl, VL)` for any `ctl` whose dwords hold the immediate's fields in
their low two bits. -/
def Obligations.PermImmIsPermVar : Prop :=
  ∀ (vl : VL) (src ctl : Vec) (imm8 : BitVec 8),
    (∀ j < vl.kl, (dword ctl j).extractLsb' 0 2 = imm8.extractLsb' (2 * (j % 4)) 2) →
    permImm vl src imm8 = permVar vl src ctl

/-- R97, R103: `PermVar` depends on its control vector only through the low two bits of each control dword. -/
def Obligations.HighControlBitsIgnored : Prop :=
  ∀ (vl : VL) (src ctl ctl' : Vec),
    (∀ j < vl.kl, (dword ctl j).toNat % 4 = (dword ctl' j).toNat % 4) → permVar vl src ctl = permVar vl src ctl'

/-- R104: an EVEX form with no writemask, no broadcast and registers below 16 computes the same register as the VEX form
of the same length on the same operands, the `r/m` operand a register or memory that can be read. For F4 and F9 with
`MAXVL` = 512 this rests on F4 clearing bits 511:256, the spec's choice (90_conflicts.md C4, D12; log 20). -/
def Obligations.UnmaskedEvexEqualsVex : Prop :=
  ∀ (d s1 : BitVec 4) (rm : VexRM) (rm' : EvexRM) (imm8 : BitVec 8) (s : State) (x : Vec),
    s.rip.toNat + 12 < 2 ^ 64 →
    (enabled .f1 s = true → enabled .f5 s = true → sameOperand s 16 (vexLen rm false) (evexLen rm' false) rm rm' →
      fetchVexRM s .v128 (vexLen rm false) rm = .next x → ∃ t u,
      exec (.vexVar128 d s1 rm) s = .next t ∧
      exec (.evexVar128 (d.setWidth 5) (s1.setWidth 5) rm' ⟨0, false⟩) s = .next u ∧ t.v = u.v) ∧
    (enabled .f3 s = true → enabled .f6 s = true → sameOperand s 32 (vexLen rm false) (evexLen rm' false) rm rm' →
      fetchVexRM s .v256 (vexLen rm false) rm = .next x → ∃ t u,
      exec (.vexVar256 d s1 rm) s = .next t ∧
      exec (.evexVar256 (d.setWidth 5) (s1.setWidth 5) rm' ⟨0, false⟩) s = .next u ∧ t.v = u.v) ∧
    (enabled .f2 s = true → enabled .f8 s = true → sameOperand s 16 (vexLen rm true) (evexLen rm' true) rm rm' →
      fetchVexRM s .v128 (vexLen rm true) rm = .next x → ∃ t u,
      exec (.vexImm128 d rm imm8) s = .next t ∧
      exec (.evexImm128 (d.setWidth 5) rm' ⟨0, false⟩ imm8) s = .next u ∧ t.v = u.v) ∧
    (enabled .f4 s = true → enabled .f9 s = true → sameOperand s 32 (vexLen rm true) (evexLen rm' true) rm rm' →
      fetchVexRM s .v256 (vexLen rm true) rm = .next x → ∃ t u,
      exec (.vexImm256 d rm imm8) s = .next t ∧
      exec (.evexImm256 (d.setWidth 5) rm' ⟨0, false⟩ imm8) s = .next u ∧ t.v = u.v)

/-- R115, R116 (log 26): the nine vector-control intrinsics are what each of their forms computes on registers, the
unmasked F5 and F6 of the prototypes 17 and 18 among them. -/
def Obligations.PermutevarIntrinsicsMatch : Prop :=
  ∀ (d s1 m : BitVec 5) (dv sv mv : BitVec 4) (k : BitVec 3) (s : State), k ≠ 0 →
    let x : IntrinsicArgs := ⟨readV s s1, readV s m, 0, readV s d, (readK s k).setWidth 16⟩
    let y : IntrinsicArgs := ⟨readV s (sv.setWidth 5), readV s (mv.setWidth 5), 0, 0, 0⟩
    computes (.evexVar512 d s1 (.reg m) ⟨0, false⟩) s .mm512_permutevar_ps x ∧
    computes (.evexVar512 d s1 (.reg m) ⟨k, false⟩) s .mm512_mask_permutevar_ps x ∧
    computes (.evexVar512 d s1 (.reg m) ⟨k, true⟩) s .mm512_maskz_permutevar_ps x ∧
    computes (.evexVar256 d s1 (.reg m) ⟨k, false⟩) s .mm256_mask_permutevar_ps x ∧
    computes (.evexVar256 d s1 (.reg m) ⟨k, true⟩) s .mm256_maskz_permutevar_ps x ∧
    computes (.evexVar128 d s1 (.reg m) ⟨k, false⟩) s .mm_mask_permutevar_ps x ∧
    computes (.evexVar128 d s1 (.reg m) ⟨k, true⟩) s .mm_maskz_permutevar_ps x ∧
    computes (.vexVar128 dv sv (.reg mv)) s .mm_permutevar_ps y ∧
    computes (.vexVar256 dv sv (.reg mv)) s .mm256_permutevar_ps y ∧
    computes (.evexVar128 d s1 (.reg m) ⟨0, false⟩) s .mm_permutevar_ps x ∧
    computes (.evexVar256 d s1 (.reg m) ⟨0, false⟩) s .mm256_permutevar_ps x

/-- R115, R116 (log 26): the nine immediate-control intrinsics are what each of their forms computes on registers, the
unmasked F8 and F9 of the prototypes 15 and 16 among them, `imm8` being the low 8 bits of the `int`. That F4 leaves the value of prototype 16 with
zeros above, in the whole register, is the spec's choice (90_conflicts.md C4, D12; log 20). -/
def Obligations.PermuteIntrinsicsMatch : Prop :=
  ∀ (d m : BitVec 5) (dv mv : BitVec 4) (k : BitVec 3) (imm : BitVec 32) (s : State), k ≠ 0 →
    let i8 := imm.extractLsb' 0 8
    let x : IntrinsicArgs := ⟨readV s m, 0, imm, readV s d, (readK s k).setWidth 16⟩
    let y : IntrinsicArgs := ⟨readV s (mv.setWidth 5), 0, imm, 0, 0⟩
    computes (.evexImm512 d (.reg m) ⟨0, false⟩ i8) s .mm512_permute_ps x ∧
    computes (.evexImm512 d (.reg m) ⟨k, false⟩ i8) s .mm512_mask_permute_ps x ∧
    computes (.evexImm512 d (.reg m) ⟨k, true⟩ i8) s .mm512_maskz_permute_ps x ∧
    computes (.evexImm256 d (.reg m) ⟨k, false⟩ i8) s .mm256_mask_permute_ps x ∧
    computes (.evexImm256 d (.reg m) ⟨k, true⟩ i8) s .mm256_maskz_permute_ps x ∧
    computes (.evexImm128 d (.reg m) ⟨k, false⟩ i8) s .mm_mask_permute_ps x ∧
    computes (.evexImm128 d (.reg m) ⟨k, true⟩ i8) s .mm_maskz_permute_ps x ∧
    computes (.vexImm128 dv (.reg mv) i8) s .mm_permute_ps y ∧
    computes (.vexImm256 dv (.reg mv) i8) s .mm256_permute_ps y ∧
    computes (.evexImm128 d (.reg m) ⟨0, false⟩ i8) s .mm_permute_ps x ∧
    computes (.evexImm256 d (.reg m) ⟨0, false⟩ i8) s .mm256_permute_ps x

/-! ### The memory operand -/

/-- R72 to R76: for any factor `n` of a displacement byte and any length `len`, the effective address is the integer sum
of base, scaled index and displacement, modulo 2^64. In an instruction the length is that of its encoding, so that the
RIP-relative base is the address of the next instruction, the factor of a VEX form is 1, and that of an EVEX form is the
number of bytes read, which is 4 under broadcast and `VL/8` else. -/
def Obligations.EffectiveAddressIsTheSum : Prop :=
  (∀ (s : State) (n len : Nat) (a : Addr),
    ((effAddr s (BitVec.ofNat 64 n) len a).toNat : Int) = addrInt s n len a % 2 ^ 64) ∧
  (∀ (s : State) (i : Instr) (o : MemOperand), operandOf i = some o →
    (∃ ea : Word, operandRange s i = some (ea, o.bytes) ∧
      (ea.toNat : Int) = addrInt s o.factor (encode i).length o.addr % 2 ^ 64) ∧
    (i.form.isEvex = false → o.factor = 1 ∧ 8 * o.bytes = i.form.vl.bits) ∧
    (i.form.isEvex = true → o.factor = o.bytes ∧
      (bcstOf i = true → o.bytes = 4) ∧ (bcstOf i = false → 8 * o.bytes = i.form.vl.bits)))

/-- R35, R38, R40, R75, R76, R91, with the byte order of the spec's decision D6 (log 8): a read of 4, 16, 32 or 64
readable bytes answers their little-endian value, whatever the alignment (R41, D7). So a full memory operand of a VEX
form is 16 or 32 bytes at a sum whose displacement byte is not scaled, and one of an EVEX form is 16, 32 or 64 bytes at a
sum whose displacement byte is scaled by that number. -/
def Obligations.OperandReadIsLittleEndian : Prop :=
  ∀ (s : State) (bs : List Byte),
    (∀ ea : Word, bs.length ∈ [4, 16, 32, 64] → operandAdmitted s ea bs.length = true → dataBytes s ea.toNat bs →
      ∃ x, operandRead s ea bs.length = .next x ∧ holdsBytes x bs) ∧
    (∀ (vl : VL) (len : Nat) (a : Addr), (vl, bs.length) ∈ [(VL.v128, 16), (.v256, 32)] →
      operandStands s (addrInt s 1 len a) bs → ∃ x, fetchVexRM s vl len (.mem a) = .next x ∧ holdsBytes x bs) ∧
    (∀ (vl : VL) (len : Nat) (a : Addr), (vl, bs.length) ∈ [(VL.v128, 16), (.v256, 32), (.v512, 64)] →
      operandStands s (addrInt s bs.length len a) bs →
      ∃ x, fetchEvexRM s vl len (.mem a false) = .next x ∧ holdsBytes x bs)

/-- R36, with the byte order of the spec's decision D6 (R38; log 8): with `EVEX.b` = 1 exactly four bytes are read, and
their little-endian value is copied into every element. Their address is the sum with the factor 4 of R76 (log 29). -/
def Obligations.BroadcastCopiesFourBytes : Prop :=
  ∀ (s : State) (vl : VL) (len : Nat) (a : Addr) (b0 b1 b2 b3 : Byte),
    operandStands s (addrInt s 4 len a) [b0, b1, b2, b3] →
    ∃ x, fetchEvexRM s vl len (.mem a true) = .next x ∧ hasElements x vl.kl fun _ => le32 b0 b1 b2 b3

/-- R47, R128 (log 6): the fault of the lowest byte that faults is the operand's, and it ends the instruction. -/
def Obligations.LowestFaultingByteDecides : Prop :=
  ∀ (i : Instr) (s : State) (ea : Word) (n m : Nat) (f : Fault), operandRange s i = some (ea, n) →
    enabled i.form s = true → operandInRange s i = true → operandAdmitted s ea n = true → m < n →
    (∀ p < m, ∃ b, byteAt s .data (ea.toNat + p) = .next b) → byteAt s .data (ea.toNat + m) = .fault f →
    exec i s = .fault f

/-- R45, R96, the spec's decision D17 (log 28): a fault on the memory operand is raised whatever the mask selector, the zeroing bit and the mask
registers hold. -/
def Obligations.MaskSuppressesNoFault : Prop :=
  ∀ (d s1 : BitVec 5) (a : Addr) (bcst : Bool) (m m' : WriteMask) (imm8 : BitVec 8) (s : State)
    (k : Vector Word 8) (f : Fault),
    (exec (.evexVar128 d s1 (.mem a bcst) m) s = .fault f →
      exec (.evexVar128 d s1 (.mem a bcst) m') { s with k := k } = .fault f) ∧
    (exec (.evexVar256 d s1 (.mem a bcst) m) s = .fault f →
      exec (.evexVar256 d s1 (.mem a bcst) m') { s with k := k } = .fault f) ∧
    (exec (.evexVar512 d s1 (.mem a bcst) m) s = .fault f →
      exec (.evexVar512 d s1 (.mem a bcst) m') { s with k := k } = .fault f) ∧
    (exec (.evexImm128 d (.mem a bcst) m imm8) s = .fault f →
      exec (.evexImm128 d (.mem a bcst) m' imm8) { s with k := k } = .fault f) ∧
    (exec (.evexImm256 d (.mem a bcst) m imm8) s = .fault f →
      exec (.evexImm256 d (.mem a bcst) m' imm8) { s with k := k } = .fault f) ∧
    (exec (.evexImm512 d (.mem a bcst) m imm8) s = .fault f →
      exec (.evexImm512 d (.mem a bcst) m' imm8) { s with k := k } = .fault f)

/-- R42, R44, R48, D22 (the order among them is the model's, log 15; the sum is read as log 14 says): an enabled form is
refused when its effective-address sum passes 2^64 - 1, else when its operand is misaligned with alignment checking on,
else when it would wrap, else when it touches a device; in the situation of none of them it is not refused for its
operand. -/
def Obligations.OperandRefusals : Prop :=
  ∀ (i : Instr) (s : State) (ea : Word) (n : Nat), operandRange s i = some (ea, n) → enabled i.form s = true →
    if operandInRange s i = false then exec i s = .refused .addressWrap
    else if s.am = true ∧ s.ac = true ∧ s.cpl = 3 ∧ ea.toNat % n ≠ 0 then exec i s = .refused .alignmentCheck
    else if 2 ^ 64 ≤ ea.toNat + n - 1 then exec i s = .refused .operandWrap
    else if touchesDevice s ea.toNat n = true then exec i s = .refused .deviceMemory
    else ∀ r, exec i s = .refused r → r = .ripWrap

/-- R24, D22 (log 13): an enabled form whose operand can be read is refused when `rip + len` passes the top. -/
def Obligations.RipWrapIsRefused : Prop :=
  ∀ (i : Instr) (s : State) (x : Vec), enabled i.form s = true → fetchOf i s = .next x →
    2 ^ 64 ≤ s.rip.toNat + instrLen i → exec i s = .refused .ripWrap

/-! ### The whole machine -/

/-- R9, R17, R21, D24 and the canonical form of memory: every step keeps the invariant. -/
def Obligations.StepKeepsInvariant : Prop :=
  ∀ s t : State, Inv s → step s = .next t → Inv t

/-- The reset state meets the invariant; its values are the model's choice (log 1, log 2). -/
def Obligations.ResetStateMeetsInvariant : Prop := Inv State.reset

/-- The reset state holds the table of 10_state.md R32, which the spec gives for orientation only; the values are the
family's (log 2), and no form can run in it. -/
def Obligations.ResetTable : Prop :=
  (∀ n, readV State.reset n = 0) ∧ (∀ n, readK State.reset n = 0) ∧ (∀ n, n ≠ 2 → readG State.reset n = 0) ∧
  State.reset.rip = 0xFFF0 ∧ State.reset.csBase = 0xFFFF0000 ∧ State.reset.rflags = 2 ∧ State.reset.mxcsr = 0x1F80 ∧ State.reset.cr0 = 0x60000010 ∧
  State.reset.cr4 = 0 ∧ State.reset.xcr0 = 1 ∧ State.reset.efer = 0 ∧ State.reset.cpl = 0 ∧
  (∀ i, exec i State.reset = .fault .ud) ∧ step State.reset = .refused .not64BitMode

/-- R142: no step changes a condition of `Enabled`, so what is enabled before a program is enabled before each of its
instructions. -/
def Obligations.RunKeepsEnabled : Prop :=
  ∀ (fuel : Nat) (aend : Word) (s t : State) (f : Form), runTo aend fuel s = .done t → enabled f t = enabled f s

/-- R131, R149: a run that ends in an exception ends in the state that the faulting instruction found: that state's
own step is the exception, and memory is that of the start. -/
def Obligations.RunFaultsInTheStateBefore : Prop :=
  ∀ (fuel : Nat) (aend : Word) (s t : State) (f : Fault), runTo aend fuel s = .fault f t →
    step t = .fault f ∧ t.rip ≠ aend ∧ t.mem = s.mem ∧ ∀ n, readG t n = readG s n

/-- R142, R149: a straight-line program of well-formed register-operand instructions, laid end to end from `rip` where
it can be fetched, each enabled at the start, runs to its end address in as many steps as it has instructions. -/
def Obligations.StraightLineProgramIsDone : Prop :=
  ∀ (is : List Instr) (s : State),
    (∀ i ∈ is, i.wf = true ∧ registerOnly i = true ∧ enabled i.form s = true) →
    s.rip.toNat + (programBytes is).length < 2 ^ 64 → codeAt s s.rip.toNat (programBytes is) →
    ∃ t, runTo (s.rip + BitVec.ofNat 64 (programBytes is).length) is.length s = .done t
end

