-- ==== Sys2Proof/Laws/State.lean ====
section
/-! SUPPORT. The small lemmas of the state: one per field and update, true by rfl, and reads after writes. -/

namespace Sys2Proof.Machine

section Advance
variable (s : State) (len : Nat)
@[simp] theorem advance_cfg : (advance s len).cfg = s.cfg := rfl
@[simp] theorem advance_v : (advance s len).v = s.v := rfl
@[simp] theorem advance_k : (advance s len).k = s.k := rfl
@[simp] theorem advance_g : (advance s len).g = s.g := rfl
@[simp] theorem advance_rip : (advance s len).rip = s.rip + BitVec.ofNat 64 len := rfl
@[simp] theorem advance_rflags : (advance s len).rflags = s.rflags := rfl
@[simp] theorem advance_mxcsr : (advance s len).mxcsr = s.mxcsr := rfl
@[simp] theorem advance_cr0 : (advance s len).cr0 = s.cr0 := rfl
@[simp] theorem advance_cr2 : (advance s len).cr2 = s.cr2 := rfl
@[simp] theorem advance_cr4 : (advance s len).cr4 = s.cr4 := rfl
@[simp] theorem advance_xcr0 : (advance s len).xcr0 = s.xcr0 := rfl
@[simp] theorem advance_efer : (advance s len).efer = s.efer := rfl
@[simp] theorem advance_csL : (advance s len).csL = s.csL := rfl
@[simp] theorem advance_csBase : (advance s len).csBase = s.csBase := rfl
@[simp] theorem advance_cpl : (advance s len).cpl = s.cpl := rfl
@[simp] theorem advance_mem : (advance s len).mem = s.mem := rfl
@[simp] theorem readV_advance (n : BitVec 5) : readV (advance s len) n = readV s n := rfl
@[simp] theorem readK_advance (n : BitVec 3) : readK (advance s len) n = readK s n := rfl
@[simp] theorem readG_advance (n : BitVec 4) : readG (advance s len) n = readG s n := rfl
end Advance

section WriteV
variable (s : State) (d : BitVec 5) (x : Vec)
@[simp] theorem writeV_cfg : (writeV s d x).cfg = s.cfg := rfl
@[simp] theorem writeV_k : (writeV s d x).k = s.k := rfl
@[simp] theorem writeV_g : (writeV s d x).g = s.g := rfl
@[simp] theorem writeV_rip : (writeV s d x).rip = s.rip := rfl
@[simp] theorem writeV_rflags : (writeV s d x).rflags = s.rflags := rfl
@[simp] theorem writeV_mxcsr : (writeV s d x).mxcsr = s.mxcsr := rfl
@[simp] theorem writeV_cr0 : (writeV s d x).cr0 = s.cr0 := rfl
@[simp] theorem writeV_cr2 : (writeV s d x).cr2 = s.cr2 := rfl
@[simp] theorem writeV_cr4 : (writeV s d x).cr4 = s.cr4 := rfl
@[simp] theorem writeV_xcr0 : (writeV s d x).xcr0 = s.xcr0 := rfl
@[simp] theorem writeV_efer : (writeV s d x).efer = s.efer := rfl
@[simp] theorem writeV_csL : (writeV s d x).csL = s.csL := rfl
@[simp] theorem writeV_csBase : (writeV s d x).csBase = s.csBase := rfl
@[simp] theorem writeV_cpl : (writeV s d x).cpl = s.cpl := rfl
@[simp] theorem writeV_mem : (writeV s d x).mem = s.mem := rfl
@[simp] theorem readK_writeV (n : BitVec 3) : readK (writeV s d x) n = readK s n := rfl
@[simp] theorem readG_writeV (n : BitVec 4) : readG (writeV s d x) n = readG s n := rfl
end WriteV

theorem getLsbD_lowBits {w : Nat} (n : Nat) (x : BitVec w) (i : Nat) :
    (lowBits n x).getLsbD i = (decide (i < n) && x.getLsbD i) := by
  by_cases h : i < w
  · simp [lowBits, BitVec.getLsbD_setWidth, h]
  · have : x.getLsbD i = false := BitVec.getLsbD_of_ge x i (by omega)
    simp [lowBits, h, this]

/-- Cutting to the same width twice changes nothing more. -/
@[simp] theorem lowBits_idem {w : Nat} (n : Nat) (x : BitVec w) : lowBits n (lowBits n x) = lowBits n x := by
  apply BitVec.eq_of_getLsbD_eq
  intro i _
  simp only [getLsbD_lowBits]
  cases decide (i < n) <;> simp

theorem lowBits_of_le {w : Nat} (n : Nat) (x : BitVec w) (h : w ≤ n) : lowBits n x = x := by
  apply BitVec.eq_of_getLsbD_eq
  intro i hi
  have : i < n := by omega
  simp [getLsbD_lowBits, this]

/-- The register written reads as the value, cut to `MAXVL` bits. -/
@[simp] theorem readV_writeV_same (s : State) (d : BitVec 5) (x : Vec) :
    readV (writeV s d x) d = lowBits (maxvl s.cfg) x := by
  simp [readV, writeV]

/-- Every other register reads as before. -/
theorem readV_writeV_ne (s : State) (d n : BitVec 5) (x : Vec) (h : n ≠ d) :
    readV (writeV s d x) n = readV s n := by
  have : d.toNat ≠ n.toNat := fun e => h (BitVec.eq_of_toNat_eq e.symm)
  simp [readV, writeV, this]

/-- A step that changes nothing but vector registers and `rip` changes no control condition. -/
theorem mode64_writeV (s : State) (d : BitVec 5) (x : Vec) (len : Nat) :
    (advance (writeV s d x) len).mode64 = s.mode64 := rfl

theorem enabled_writeV (f : Form) (s : State) (d : BitVec 5) (x : Vec) (len : Nat) :
    enabled f (advance (writeV s d x) len) = enabled f s := rfl

end Sys2Proof.Machine
end

