-- ==== Sys2Proof/Laws/Ops.lean ====
section
/-! SUPPORT. For each shared operation, once, everything it can do. -/

namespace Sys2Proof.Machine

open Host (Outcome)

/-- A sequence answers a next value only through both its parts. -/
theorem andThen_next_iff {α β : Type} {o : Outcome α Fault Refusal} {k : α → Outcome β Fault Refusal} {b : β} :
    andThen o k = .next b ↔ ∃ a, o = .next a ∧ k a = .next b := by
  cases o <;> simp [andThen]

@[simp] theorem andThen_next {α β : Type} (a : α) (k : α → Outcome β Fault Refusal) : andThen (.next a) k = k a := rfl
@[simp] theorem andThen_fault {α β : Type} (f : Fault) (k : α → Outcome β Fault Refusal) :
    andThen (.fault f) k = .fault f := rfl
@[simp] theorem andThen_refused {α β : Type} (r : Refusal) (k : α → Outcome β Fault Refusal) :
    andThen (.refused r) k = .refused r := rfl

/-- The check before every form passes exactly when the form is enabled (R142). -/
theorem precheck_next_iff (f : Form) (s : State) : precheck f s = .next () ↔ enabled f s = true := by
  unfold precheck
  split_ifs <;> simp_all [raise, enabled, capable, State.mode64] <;>
    first
    | (rcases ‹_ ∨ _› with h | h <;> simp [h])
    | (cases h : f.isEvex <;> cases h' : f.needsAVX512VL <;> simp_all)

/-- Completing answers one next state: `V[d]` and `rip` written, where `rip + len` stays below 2^64. -/
theorem complete_next_iff {s t : State} {d : BitVec 5} {x : Vec} {len : Nat} :
    complete s d x len = .next t ↔ s.rip.toNat + len < 2 ^ 64 ∧ t = advance (writeV s d x) len := by
  unfold complete
  split
  · simp; omega
  · simp [eq_comm]; omega

/-- Completing never faults. -/
theorem complete_ne_fault (s : State) (d : BitVec 5) (x : Vec) (len : Nat) (f : Fault) :
    complete s d x len ≠ .fault f := by
  unfold complete; split <;> simp

/-- A VEX form answers a next state only by passing the check, reading its operand and completing. -/
theorem runVex_next_iff {f : Form} {s t : State} {d : BitVec 4} {rm : VexRM} {len : Nat} {c : Vec → Vec} :
    runVex f s d rm len c = .next t ↔
      enabled f s = true ∧ s.rip.toNat + len < 2 ^ 64 ∧
        ∃ x, fetchVexRM s f.vl len rm = .next x ∧ t = advance (writeV s (d.setWidth 5) (c x)) len := by
  simp only [runVex, andThen_next_iff, complete_next_iff, ← precheck_next_iff]
  constructor
  · rintro ⟨_, h1, x, h2, h3, h4⟩
    exact ⟨h1, h3, x, h2, h4⟩
  · rintro ⟨h1, h3, x, h2, h4⟩
    exact ⟨(), h1, x, h2, h3, h4⟩

/-- An EVEX form answers a next state only by passing the check, reading its operand and completing under the
writemask. -/
theorem runEvex_next_iff {f : Form} {s t : State} {d : BitVec 5} {rm : EvexRM} {m : WriteMask} {len : Nat}
    {c : Vec → Vec} :
    runEvex f s d rm m len c = .next t ↔
      enabled f s = true ∧ s.rip.toNat + len < 2 ^ 64 ∧
        ∃ x, fetchEvexRM s f.vl len rm = .next x ∧
          t = advance (writeV s d (applyMask f.vl (readVL s f.vl d) (c x) (readK s m.aaa) m)) len := by
  simp only [runEvex, andThen_next_iff, complete_next_iff, ← precheck_next_iff]
  constructor
  · rintro ⟨_, h1, x, h2, h3, h4⟩
    exact ⟨h1, h3, x, h2, h4⟩
  · rintro ⟨h1, h3, x, h2, h4⟩
    exact ⟨(), h1, x, h2, h3, h4⟩

/-- What any instruction can do when it answers a next state: it is enabled, and it writes `V[d]` and `rip` only. -/
theorem exec_next_cases {i : Instr} {s t : State} (h : exec i s = .next t) :
    enabled i.form s = true ∧ s.rip.toNat + instrLen i < 2 ^ 64 ∧
      ∃ x, t = advance (writeV s (destOf i) x) (instrLen i) := by
  cases i <;>
    simp only [exec, execVexVar128, execVexImm128, execVexVar256, execVexImm256, execEvexVar128, execEvexVar256,
      execEvexVar512, execEvexImm128, execEvexImm256, execEvexImm512, runVex_next_iff, runEvex_next_iff] at h <;>
    obtain ⟨h1, h2, x, _, h3⟩ := h <;> exact ⟨h1, h2, _, h3⟩

/-- A step answers a next state only by running a decoded instruction in 64-bit mode. -/
theorem step_next_cases {s t : State} (h : step s = .next t) :
    s.mode64 = true ∧ ∃ i rest, fetchDecode s = .instr i rest ∧ exec i s = .next t := by
  have hstop : ∀ n a, fetchStop s n a ≠ .next t := by
    intro n
    induction n with
    | zero => intro a; simp [fetchStop]
    | succ n ih =>
      intro a
      unfold fetchStop
      split
      · exact ih _
      · simp
      · simp
  unfold step at h
  split at h
  · simp at h
  · rename_i hm
    split at h
    · rename_i i rest hd
      exact ⟨by simpa using hm, i, rest, hd, h⟩
    · simp [raise] at h
    · simp at h
    · simp at h
    · exact absurd h (hstop _ _)

end Sys2Proof.Machine
end

