-- ==== Sys2Proof/Laws/Bytes.lean ====
section
/-! SUPPORT. Runs of bytes: what the fetch window and a read of several bytes answer, in terms of the single bytes. -/

namespace Sys2Proof.Machine

open Host (Outcome)

/-- Bytes that stand at an address and can be fetched are the first bytes of the fetch window. -/
theorem fetchWindow_of_codeAt (s : State) (bs : List Byte) (a n : Nat) (h : codeAt s a bs) (hn : bs.length ≤ n) :
    fetchWindow s n a = bs ++ fetchWindow s (n - bs.length) (a + bs.length) := by
  induction bs generalizing a n with
  | nil => simp
  | cons b bs ih =>
    cases n with
    | zero => simp at hn
    | succ n =>
      have h0 : fetchByte s a = .next b := h 0 (by simp)
      have ht : codeAt s (a + 1) bs := by
        intro m hm
        have := h (m + 1) (by simpa using hm)
        simpa [Nat.add_assoc, Nat.add_comm 1 m] using this
      have hl : bs.length ≤ n := by simpa using hn
      simp [fetchWindow, h0, ih (a + 1) n ht hl, Nat.add_assoc, Nat.add_comm 1 bs.length]

/-- A fetch window as long as its bytes holds bytes that stand there and can be fetched. -/
theorem codeAt_of_fetchWindow (s : State) (bs : List Byte) (a : Nat) (h : fetchWindow s bs.length a = bs) :
    codeAt s a bs := by
  induction bs generalizing a with
  | nil => intro m hm; simp at hm
  | cons b bs ih =>
    simp only [List.length_cons, fetchWindow] at h
    split at h
    · rename_i b' hb
      simp only [List.cons.injEq] at h
      obtain ⟨rfl, h⟩ := h
      intro m hm
      cases m with
      | zero => simpa using hb
      | succ m =>
        have := ih (a + 1) h m (by simpa using hm)
        simpa [Nat.add_assoc, Nat.add_comm 1 m] using this
    · simp at h
    · simp at h

/-- A read of several bytes answers the list of them exactly when each can be read. -/
theorem readBytes_next_iff (s : State) (acc : Access) (n a : Nat) (bs : List Byte) :
    readBytes s acc n a = .next bs ↔ bs.length = n ∧ ∀ m (h : m < bs.length), byteAt s acc (a + m) = .next bs[m] := by
  induction n generalizing a bs with
  | zero =>
    constructor
    · intro h
      simp only [readBytes, Outcome.next.injEq] at h
      subst h
      simp
    · rintro ⟨h, _⟩
      have : bs = [] := List.length_eq_zero_iff.mp h
      simp [readBytes, this]
  | succ n ih =>
    simp only [readBytes, andThen_next_iff]
    constructor
    · rintro ⟨b, hb, cs, hcs, h⟩
      simp only [Outcome.next.injEq] at h
      subst h
      obtain ⟨hl, hrest⟩ := (ih (a + 1) cs).mp hcs
      refine ⟨by simp [hl], ?_⟩
      intro m hm
      cases m with
      | zero => simpa using hb
      | succ m =>
        have := hrest m (by simpa using hm)
        simpa [Nat.add_assoc, Nat.add_comm 1 m] using this
    · rintro ⟨hl, h⟩
      cases bs with
      | nil => simp at hl
      | cons b cs =>
        refine ⟨b, h 0 (by simp), cs, (ih (a + 1) cs).mpr ⟨by simpa using hl, ?_⟩, rfl⟩
        intro m hm
        have := h (m + 1) (by simpa using hm)
        simpa [Nat.add_assoc, Nat.add_comm 1 m] using this

/-- A read answers the bytes that can be read as data at its address. -/
theorem dataBytes_iff (s : State) (a : Nat) (bs : List Byte) :
    dataBytes s a bs ↔ readBytes s .data bs.length a = .next bs := by
  simp [readBytes_next_iff, dataBytes]

/-- A byte read never ends in a refusal. -/
theorem byteAt_ne_refused (s : State) (acc : Access) (a : Nat) (r : Refusal) : byteAt s acc a ≠ .refused r := by
  unfold byteAt raise
  split
  · simp
  · split <;> simp

/-- One byte answers a fault, or the byte listed for its address. -/
theorem byteAt_next_iff (s : State) (acc : Access) (a : Nat) (b : Byte) :
    byteAt s acc a = .next b ↔
      s.mem.faults.find? (fun r => r.covers acc s.cpl a) = none ∧ cellAt s.mem.cells a = some b := by
  unfold byteAt raise
  split
  · rename_i h; simp [h]
  · rename_i h
    split <;> simp_all

end Sys2Proof.Machine
end

