-- ==== Sys2Proof/Laws/Memory.lean ====
section
/-! SUPPORT. Every memory operation keeps the canonical form, and a byte written reads back. -/

namespace Sys2Proof.Machine

/-- Reading one byte after writing one. -/
theorem cellAt_putCell (cs : List Host.Cell) (a b : Nat) (x : Byte) (h : risingCells cs = true) :
    cellAt (putCell cs a x) b = if a = b then some x else cellAt cs b := by
  induction cs with
  | nil => simp [putCell, cellAt]
  | cons c cs ih =>
    have hr : risingCells cs = true := by
      cases cs with
      | nil => rfl
      | cons d ds => simp [risingCells] at h; exact h.2
    unfold putCell
    split
    · simp [cellAt]
    · split
      · rename_i h1 h2
        subst h2
        by_cases e : c.1 = b <;> simp [cellAt, e]
      · rename_i h1 h2
        simp only [cellAt, ih hr]
        by_cases e : c.1 = b
        · have : a ≠ b := fun x => h2 (by omega)
          simp [e, this]
        · simp [e]

theorem rising_cons_putCell (c : Host.Cell) (cs : List Host.Cell) (a : Nat) (x : Byte)
    (h : risingCells (c :: cs) = true) (ha : c.1 < a) (hp : risingCells (putCell cs a x) = true) :
    risingCells (c :: putCell cs a x) = true := by
  cases cs with
  | nil => simp [putCell, risingCells, ha]
  | cons d ds =>
    have hcd : c.1 < d.1 := by simp [risingCells] at h; exact h.1
    by_cases h1 : a < d.1
    · simp_all [putCell, risingCells]
    · by_cases h2 : a = d.1
      · simp_all [putCell, risingCells]
      · simp only [putCell, h1, h2, if_false] at hp ⊢
        simp [risingCells, hcd, hp]

/-- Writing one byte keeps the addresses strictly rising. -/
theorem rising_putCell (cs : List Host.Cell) (a : Nat) (x : Byte) (h : risingCells cs = true) :
    risingCells (putCell cs a x) = true := by
  induction cs with
  | nil => rfl
  | cons c cs ih =>
    have hr : risingCells cs = true := by
      cases cs with
      | nil => rfl
      | cons d ds => simp [risingCells] at h; exact h.2
    by_cases h1 : a < c.1
    · simp [putCell, h1, risingCells, h]
    · by_cases h2 : a = c.1
      · cases cs with
        | nil => simp [putCell, h2, risingCells]
        | cons d ds =>
          simp [risingCells] at h
          simp [putCell, h2, risingCells, h]
      · have h3 : c.1 < a := by omega
        have : putCell (c :: cs) a x = c :: putCell cs a x := by simp [putCell, h1, h2]
        rw [this]
        exact rising_cons_putCell c cs a x h h3 (ih hr)

theorem bounded_putCell (cs : List Host.Cell) (a : Nat) (x : Byte) (ha : a < 2 ^ 64)
    (h : cs.all (fun c => c.1 < 2 ^ 64) = true) : (putCell cs a x).all (fun c => c.1 < 2 ^ 64) = true := by
  induction cs with
  | nil => simp [putCell]; exact ha
  | cons c cs ih =>
    simp only [List.all_cons, Bool.and_eq_true, decide_eq_true_eq] at h
    unfold putCell
    split
    · simp only [List.all_cons, Bool.and_eq_true, decide_eq_true_eq]; exact ⟨ha, h.1, h.2⟩
    · split
      · simp only [List.all_cons, Bool.and_eq_true, decide_eq_true_eq]; exact ⟨ha, h.2⟩
      · simp only [List.all_cons, Bool.and_eq_true, decide_eq_true_eq]; exact ⟨h.1, ih h.2⟩

theorem wf_putBytes (cs : List Host.Cell) (a : Nat) (bs : List Byte)
    (h : risingCells cs = true) (hb : cs.all (fun c => c.1 < 2 ^ 64) = true) :
    risingCells (putBytes cs a bs) = true ∧ (putBytes cs a bs).all (fun c => c.1 < 2 ^ 64) = true := by
  induction bs generalizing cs a with
  | nil => exact ⟨h, hb⟩
  | cons b bs ih =>
    unfold putBytes
    by_cases ha : a < 2 ^ 64
    · rw [if_pos ha]
      exact ih _ _ (rising_putCell cs a b h) (bounded_putCell cs a b ha hb)
    · rw [if_neg ha]
      exact ih _ _ h hb

/-- Writing bytes keeps the canonical form. -/
theorem wf_memWrite (s : State) (a : Nat) (bs : List Byte) (h : s.mem.wf = true) : (memWrite s a bs).mem.wf = true := by
  simp only [Memory.wf, Bool.and_eq_true] at h ⊢
  exact wf_putBytes s.mem.cells a bs h.1 h.2

theorem wf_mapZeros (cs : List Host.Cell) (a n : Nat)
    (h : risingCells cs = true) (hb : cs.all (fun c => c.1 < 2 ^ 64) = true) :
    risingCells (mapZeros cs a n) = true ∧ (mapZeros cs a n).all (fun c => c.1 < 2 ^ 64) = true := by
  induction n generalizing cs a with
  | zero => exact ⟨h, hb⟩
  | succ n ih =>
    unfold mapZeros
    by_cases ha : a < 2 ^ 64 ∧ cellAt cs a = none
    · rw [if_pos ha]
      exact ih _ _ (rising_putCell cs a 0 h) (bounded_putCell cs a 0 ha.1 hb)
    · rw [if_neg ha]
      exact ih _ _ h hb

/-- The launch keeps the canonical form. -/
theorem wf_withFetchWord (s : State) (nbits w : Nat) (h : s.mem.wf = true) :
    (s.withFetchWord nbits w).mem.wf = true := by
  have hp : (placeCode (launchEnable s) (tableBytes nbits w)).mem.wf = true := wf_memWrite _ _ _ h
  unfold State.withFetchWord mapOperandOf
  split
  · exact hp
  · split
    · exact hp
    · rename_i ea n _
      simp only [Memory.wf, Bool.and_eq_true] at hp ⊢
      exact wf_mapZeros _ _ n hp.1 hp.2

/-- The memory after reset has the canonical form. -/
theorem wf_reset : State.reset.mem.wf = true := rfl

end Sys2Proof.Machine
end

