-- ==== Sys2Proof/Laws/Operands.lean ====
section
/-! SUPPORT. Elements of vectors: what each function of the vector operations puts into each element. -/

namespace Sys2Proof.Machine

/-- The bits of a vector built from its elements. -/
theorem getLsbD_ofDwords (n : Nat) (f : Nat → Dword) (i : Nat) :
    (ofDwords n f).getLsbD i = (decide (i < 32 * n) && decide (i < 512) && (f (i / 32)).getLsbD (i % 32)) := by
  induction n with
  | zero => simp [ofDwords]
  | succ n ih =>
    simp only [ofDwords, BitVec.getLsbD_or, ih, BitVec.getLsbD_shiftLeft, BitVec.getLsbD_setWidth]
    by_cases h512 : i < 512
    · by_cases hlt : i < 32 * n
      · have : i < 32 * (n + 1) := by omega
        simp [hlt, h512, this]
      · by_cases hle : i < 32 * (n + 1)
        · have hd : i / 32 = n := by omega
          have hm : i % 32 = i - 32 * n := by omega
          have h4 : i - 32 * n < 512 := by omega
          simp [hlt, hle, h512, hd, hm, h4]
        · have : 32 ≤ i - 32 * n := by omega
          simp [hlt, hle, BitVec.getLsbD_of_ge (f n) _ this]
    · simp [h512]

/-- Element `j` of a vector built from its elements. -/
theorem dword_ofDwords (n : Nat) (f : Nat → Dword) (j : Nat) (hj : j < 16) :
    dword (ofDwords n f) j = if j < n then f j else 0 := by
  apply BitVec.eq_of_getLsbD_eq
  intro i hi
  have h1 : 32 * j + i < 512 := by omega
  have h2 : (32 * j + i) / 32 = j := by omega
  have h3 : (32 * j + i) % 32 = i := by omega
  simp only [dword, BitVec.getLsbD_extractLsb', getLsbD_ofDwords, h1, h2, h3, hi]
  by_cases h : j < n
  · have : 32 * j + i < 32 * n := by omega
    simp [h, this]
  · have : ¬ 32 * j + i < 32 * n := by omega
    simp [h, this]

/-- Two vectors with the same elements are equal. -/
theorem vec_ext {x y : Vec} (h : ∀ j < 16, dword x j = dword y j) : x = y := by
  apply BitVec.eq_of_getLsbD_eq
  intro i hi
  have hj : i / 32 < 16 := by omega
  have := congrArg (fun z => z.getLsbD (i % 32)) (h (i / 32) hj)
  have hm : i % 32 < 32 := Nat.mod_lt _ (by omega)
  have he : 32 * (i / 32) + i % 32 = i := Nat.div_add_mod i 32
  simpa [dword, BitVec.getLsbD_extractLsb', hm, he] using this

/-- Cutting to whole elements keeps the elements below and clears those above. -/
theorem dword_lowBits (n : Nat) (x : Vec) (j : Nat) : dword (lowBits (32 * n) x) j = if j < n then dword x j else 0 := by
  apply BitVec.eq_of_getLsbD_eq
  intro i hi
  simp only [dword, BitVec.getLsbD_extractLsb', getLsbD_lowBits, hi]
  by_cases h : j < n
  · have : 32 * j + i < 32 * n := by omega
    simp [h, this, hi]
  · have : ¬ 32 * j + i < 32 * n := by omega
    simp [h, this]

theorem VL.bits_eq (vl : VL) : vl.bits = 32 * vl.kl := by cases vl <;> rfl

theorem VL.kl_le (vl : VL) : vl.kl ≤ 16 := by cases vl <;> decide

/-- `Select4` on a lane is the element of the whole vector (R87, R89). -/
theorem select4_lane (x : Vec) (l : Nat) (c : BitVec 2) : select4 (lane x l) c = dword x (4 * l + c.toNat) := by
  apply BitVec.eq_of_getLsbD_eq
  intro i hi
  have hc : c.toNat < 4 := c.isLt
  have h1 : 32 * c.toNat + i < 128 := by omega
  have h2 : 128 * l + (32 * c.toNat + i) = 32 * (4 * l + c.toNat) + i := by omega
  simp [select4, lane, dword, hi, h1, h2]

/-- Every element of `PermVar` (R89). -/
theorem dword_permVar (vl : VL) (src ctl : Vec) (j : Nat) (hj : j < 16) :
    dword (permVar vl src ctl) j = if j < vl.kl then varSource src ctl j else 0 := by
  rw [permVar, dword_ofDwords _ _ _ hj]
  simp [select4_lane, varSource]

/-- Every element of `PermImm` (R90). -/
theorem dword_permImm (vl : VL) (src : Vec) (imm8 : BitVec 8) (j : Nat) (hj : j < 16) :
    dword (permImm vl src imm8) j = if j < vl.kl then immSource src imm8 j else 0 := by
  rw [permImm, dword_ofDwords _ _ _ hj]
  simp [select4_lane, immSource, Nat.shiftRight_eq_div_pow, Nat.pow_mul]

/-- Every element of `ApplyMask` (R92). -/
theorem dword_applyMask (vl : VL) (old tmp : Vec) (mask : Word) (m : WriteMask) (j : Nat) (hj : j < 16) :
    dword (applyMask vl old tmp mask m) j =
      if j < vl.kl then
        (if m.aaa == 0#3 || mask.getLsbD j then dword tmp j else if m.z then 0 else dword old j)
      else 0 := by
  rw [applyMask, dword_ofDwords _ _ _ hj]

/-- Every element of a read through a `VL`-bit name (R18). -/
theorem dword_readVL (s : State) (vl : VL) (n : BitVec 5) (j : Nat) :
    dword (readVL s vl n) j = if j < vl.kl then dword (readV s n) j else 0 := by
  rw [readVL, VL.bits_eq, dword_lowBits]

/-- The read of a memory operand answers a value only by a read at its effective address, with a sum below 2^64
(R75, R91; 20_memory.md R48). -/
theorem operandAt_next_iff {s : State} {factor len n : Nat} {a : Addr} {x : Vec} :
    operandAt s factor len a n = .next x ↔
      addressInRange s factor len a = true ∧ operandRead s (effAddr s (BitVec.ofNat 64 factor) len a) n = .next x := by
  unfold operandAt
  split <;> simp_all

/-- The read of a memory operand faults only as the read at its effective address does. -/
theorem operandAt_fault_iff {s : State} {factor len n : Nat} {a : Addr} {f : Fault} :
    operandAt s factor len a n = .fault f ↔
      addressInRange s factor len a = true ∧ operandRead s (effAddr s (BitVec.ofNat 64 factor) len a) n = .fault f := by
  unfold operandAt
  split <;> simp_all

end Sys2Proof.Machine
end

