-- ==== Sys2Proof/Laws/PerInstr.lean ====
section
/-! SUPPORT. The families of statements made per instruction. -/

namespace Sys2Proof

theorem Disp.bytes_length_le (disp : Disp) : disp.bytes.length ≤ 4 := by cases disp <;> simp [Disp.bytes]

theorem Addr.tail_length (a : Addr) : a.bits.tail.length = a.tailLen := by
  cases a <;> simp [Addr.bits, Addr.tailLen, Disp.bytes, Nat.add_comm]

theorem Addr.tailLen_le (a : Addr) : a.tailLen ≤ 5 := by
  cases a <;> simp only [Addr.tailLen] <;> first | (have := Disp.bytes_length_le ‹_›; omega) | omega

theorem VexRM.tail_length (rm : VexRM) : rm.bits.tail.length = rm.tailLen := by
  cases rm
  · rfl
  · exact Addr.tail_length _

theorem VexRM.tailLen_le (rm : VexRM) : rm.tailLen ≤ 5 := by
  cases rm
  · simp [VexRM.tailLen]
  · exact Addr.tailLen_le _

theorem EvexRM.tail_length (rm : EvexRM) : rm.bits.tail.length = rm.tailLen := by
  cases rm
  · rfl
  · exact Addr.tail_length _

theorem EvexRM.tailLen_le (rm : EvexRM) : rm.tailLen ≤ 5 := by
  cases rm
  · simp [EvexRM.tailLen]
  · exact Addr.tailLen_le _

namespace Laws.EncodedLength

/-- The encoding has `len` bytes, 5 to 12 of them (30_encoding.md R79). -/
def Statement (i : Instr) : Prop :=
  (encode i).length = instrLen i ∧ 5 ≤ instrLen i ∧ instrLen i ≤ maxInstrLen

theorem ofVex (map : BitVec 2) (op : Byte) (long : Bool) (d v : BitVec 4) (rm : VexRM) :
    (encodeVex map op long d v rm).length = vexLen rm false := by
  simp [encodeVex, vexLen, VexRM.tail_length]; omega

theorem ofEvex (map : BitVec 2) (op : Byte) (vl : VL) (d v : BitVec 5) (rm : EvexRM) (m : WriteMask) :
    (encodeEvex map op vl d v rm m).length = evexLen rm false := by
  simp [encodeEvex, evexLen, EvexRM.tail_length]; omega

theorem vexLen_bounds (rm : VexRM) (imm : Bool) : 5 ≤ vexLen rm imm ∧ vexLen rm imm ≤ maxInstrLen := by
  have := VexRM.tailLen_le rm
  cases imm <;> simp [vexLen, maxInstrLen] <;> omega

theorem evexLen_bounds (rm : EvexRM) (imm : Bool) : 5 ≤ evexLen rm imm ∧ evexLen rm imm ≤ maxInstrLen := by
  have := EvexRM.tailLen_le rm
  cases imm <;> simp [evexLen, maxInstrLen] <;> omega

theorem vexVar128 (d s1 : BitVec 4) (rm : VexRM) : Statement (.vexVar128 d s1 rm) :=
  ⟨ofVex .., vexLen_bounds ..⟩

theorem vexImm128 (d : BitVec 4) (rm : VexRM) (imm8 : BitVec 8) : Statement (.vexImm128 d rm imm8) :=
  ⟨by simp [encode, ofVex, instrLen, vexLen], vexLen_bounds ..⟩

theorem vexVar256 (d s1 : BitVec 4) (rm : VexRM) : Statement (.vexVar256 d s1 rm) :=
  ⟨ofVex .., vexLen_bounds ..⟩

theorem vexImm256 (d : BitVec 4) (rm : VexRM) (imm8 : BitVec 8) : Statement (.vexImm256 d rm imm8) :=
  ⟨by simp [encode, ofVex, instrLen, vexLen], vexLen_bounds ..⟩

theorem evexVar128 (d s1 : BitVec 5) (rm : EvexRM) (m : WriteMask) : Statement (.evexVar128 d s1 rm m) :=
  ⟨ofEvex .., evexLen_bounds ..⟩

theorem evexVar256 (d s1 : BitVec 5) (rm : EvexRM) (m : WriteMask) : Statement (.evexVar256 d s1 rm m) :=
  ⟨ofEvex .., evexLen_bounds ..⟩

theorem evexVar512 (d s1 : BitVec 5) (rm : EvexRM) (m : WriteMask) : Statement (.evexVar512 d s1 rm m) :=
  ⟨ofEvex .., evexLen_bounds ..⟩

theorem evexImm128 (d : BitVec 5) (rm : EvexRM) (m : WriteMask) (imm8 : BitVec 8) :
    Statement (.evexImm128 d rm m imm8) :=
  ⟨by simp [encode, ofEvex, instrLen, evexLen], evexLen_bounds ..⟩

theorem evexImm256 (d : BitVec 5) (rm : EvexRM) (m : WriteMask) (imm8 : BitVec 8) :
    Statement (.evexImm256 d rm m imm8) :=
  ⟨by simp [encode, ofEvex, instrLen, evexLen], evexLen_bounds ..⟩

theorem evexImm512 (d : BitVec 5) (rm : EvexRM) (m : WriteMask) (imm8 : BitVec 8) :
    Statement (.evexImm512 d rm m imm8) :=
  ⟨by simp [encode, ofEvex, instrLen, evexLen], evexLen_bounds ..⟩

end Laws.EncodedLength

end Sys2Proof
end

