-- ==== Sys2Proof/Tests/Slice0.lean ====
section
/-! SUPPORT. Tests of the model on the spec's own examples (41_, 42_ and 95_test_vectors.md), the smoke tests of
WellFormed, and one witness for the hypotheses of each statement. -/

set_option Elab.async false

namespace Sys2Proof.Tests

open Sys2Proof.Machine

/-! ### Helpers -/

/-- A vector from its elements, element 0 first (00_scope.md R16). -/
def vec : List Nat → Vec
  | [] => 0
  | e :: es => (vec es <<< 32) ||| BitVec.ofNat 512 e

/-- Cells of consecutive bytes. -/
def cellsAt (a : Nat) : List Nat → List Host.Cell
  | [] => []
  | b :: bs => (a, BitVec.ofNat 8 b) :: cellsAt (a + 1) bs

/-- The enabled machine with `V[1]`, `V[2]`, `V[3]`, `K[1]`, `rax` and these cells, `rip` = 1000H. -/
def demoWith (v1 v2 v3 : Vec) (k1 rax : Nat) (cells : List Host.Cell) : State :=
  { launchEnable State.reset with
    rip := 0x1000
    v   := (((Vector.replicate 32 0).set 1 v1).set 2 v2).set 3 v3
    k   := (Vector.replicate 8 0).set 1 (BitVec.ofNat 64 k1)
    g   := (Vector.replicate 16 0).set 0 (BitVec.ofNat 64 rax)
    mem := ⟨cells, [], []⟩ }

/-- `n` elements of a register after a step, and `rip`. -/
def after (o : Host.Outcome State Fault Refusal) (d : BitVec 5) (n : Nat) : Option (List Nat × Nat) :=
  match o with
  | .next t => some ((List.range n).map fun j => (dword (readV t d) j).toNat, t.rip.toNat)
  | _ => none

def faultOf {σ : Type} : Host.Outcome σ Fault Refusal → Option Fault
  | .fault f => some f
  | _ => none

def refusalOf {σ : Type} : Host.Outcome σ Fault Refusal → Option Refusal
  | .refused r => some r
  | _ => none

def isNext {σ : Type} : Host.Outcome σ Fault Refusal → Bool
  | .next _ => true
  | _ => false

/-- `[00000001, 7FA00000, 80000000, 3F800000]` and four more elements (R105, R106). -/
def dataA : Vec := vec [1, 0x7FA00000, 0x80000000, 0x3F800000, 0x40000000, 0x40400000, 0x40800000, 0x40A00000]
def ctlA : Vec := vec [0xFFFFFFFF, 0x80000002, 5, 0x7FFFFFF8]
def old : Vec := vec ((List.range 16).map (0xDDDD0000 + ·))
def countA0 : Vec := vec ((List.range 16).map (0xA0 + ·))

/-! ### WellFormed: an ill-formed term for each check -/

theorem test_wf_refuses_base_needing_sib : (Instr.vexVar128 1 2 (.mem (.base 4 .none))).wf = false := by decide
theorem test_wf_refuses_base_needing_disp : (Instr.vexImm256 1 (.mem (.base 13 .none)) 0).wf = false := by decide
theorem test_wf_refuses_sib_base_needing_disp :
    (Instr.evexVar512 1 2 (.mem (.sib 0 1 5 .none) false) ⟨0, false⟩).wf = false := by decide
theorem test_wf_refuses_zeroing_without_mask : (Instr.evexImm128 1 (.reg 2) ⟨0, true⟩ 0).wf = false := by decide

/-! ### Decoding: words of 95_test_vectors.md 3.1 and 2.9, written out from R60 to R79 -/

theorem test_decode_F1 : decode [0xC4, 0x42, 0x09, 0x0C, 0xEF] = .instr (.vexVar128 13 14 (.reg 15)) [] := by decide
theorem test_decode_F2 : decode [0xC4, 0xE3, 0x79, 0x04, 0xCA, 0x1B] = .instr (.vexImm128 1 (.reg 2) 0x1B) [] := by
  decide
theorem test_decode_F3 : decode [0xC4, 0xE2, 0x6D, 0x0C, 0x08] = .instr (.vexVar256 1 2 (.mem (.base 0 .none))) [] := by
  decide
theorem test_decode_F4 : decode [0xC4, 0x63, 0x7D, 0x04, 0x15, 8, 0, 0, 0, 0xB1] =
    .instr (.vexImm256 10 (.mem (.ripRel 8)) 0xB1) [] := by decide
theorem test_decode_F5 : decode [0x62, 0xB2, 0x6D, 0x08, 0x0C, 0xCB] =
    .instr (.evexVar128 1 2 (.reg 19) ⟨0, false⟩) [] := by decide
theorem test_decode_F6 : decode [0x62, 0xF2, 0x6D, 0xB9, 0x0C, 0x08] =
    .instr (.evexVar256 1 2 (.mem (.base 0 .none) true) ⟨1, true⟩) [] := by decide
theorem test_decode_F7 : decode [0x62, 0x02, 0x0D, 0x40, 0x0C, 0xEF] =
    .instr (.evexVar512 29 30 (.reg 31) ⟨0, false⟩) [] := by decide
theorem test_decode_F8 : decode [0x62, 0xE3, 0x7D, 0x9A, 0x04, 0x48, 0x10, 0x1B] =
    .instr (.evexImm128 17 (.mem (.base 0 (.d8 0x10)) true) ⟨2, true⟩ 0x1B) [] := by decide
theorem test_decode_F9 : decode [0x62, 0xF3, 0x7D, 0x28, 0x04, 0xCA, 0x1B] =
    .instr (.evexImm256 1 (.reg 2) ⟨0, false⟩ 0x1B) [] := by decide
theorem test_decode_F10 : decode [0x62, 0xA3, 0x7D, 0xCD, 0x04, 0x84, 0x78, 0x78, 0x56, 0x34, 0x12, 0x27] =
    .instr (.evexImm512 16 (.mem (.sib 1 15 0 (.d32 0x12345678)) false) ⟨5, true⟩ 0x27) [] := by decide

/-- The encoder's bytes of the same words (95_test_vectors.md 3.1, 2.9). -/
theorem test_encode_words :
    encode (.vexVar128 13 14 (.reg 15)) = [0xC4, 0x42, 0x09, 0x0C, 0xEF] ∧
    encode (.vexImm128 1 (.mem (.sib 0 4 12 (.d32 0x12345678))) 0x39) =
      [0xC4, 0xC3, 0x79, 0x04, 0x8C, 0x24, 0x78, 0x56, 0x34, 0x12, 0x39] ∧
    encode (.evexImm512 24 (.mem (.sib 3 9 2 (.d8 0x80)) false) ⟨3, false⟩ 0xB1) =
      [0x62, 0x23, 0x7D, 0x4B, 0x04, 0x44, 0xCA, 0x80, 0xB1] := by decide

/-- 95_test_vectors.md 3.2: the encodings that are `#UD`. -/
theorem test_decode_undefined :
    ∀ bs ∈ ([[0xC4, 0xE2, 0xE9, 0x0C, 0xCB], [0xC4, 0xE3, 0x69, 0x04, 0xCA, 0x1B], [0x62, 0xF3, 0x6D, 0x48, 0x04, 0xCA, 0x1B],
      [0x62, 0xF3, 0x7D, 0x40, 0x04, 0xCA, 0x1B], [0x62, 0xF2, 0xED, 0xC9, 0x0C, 0xCB], [0x62, 0xF2, 0x6D, 0xE9, 0x0C, 0xCB],
      [0x62, 0xF2, 0x6D, 0xC8, 0x0C, 0xCB], [0x62, 0xF2, 0x6D, 0xD9, 0x0C, 0xCB], [0x62, 0xF6, 0x6D, 0x48, 0x0C, 0xCB],
      [0x62, 0xF2, 0x69, 0x48, 0x0C, 0xCB], [0x66, 0xC4, 0xE2, 0x69, 0x0C, 0xCB], [0xF0, 0x62, 0xF2, 0x6D, 0x48, 0x0C, 0xCB]] :
      List (List Byte)), decode bs = .ud := by decide

/-- 95_test_vectors.md 3.2: the bytes that are refused. -/
theorem test_decode_refused :
    (∀ bs ∈ ([[0x67, 0xC4, 0xE2, 0x69, 0x0C, 0x08], [0x64, 0xC4, 0xE2, 0x69, 0x0C, 0x08]] : List (List Byte)),
      decode bs = .legacyPrefix) ∧
    (∀ bs ∈ ([[0xC4, 0xE2, 0x68, 0x0C, 0xCB], [0xC4, 0xE2, 0x69, 0x0D, 0xCB], [0xC4, 0xE1, 0x69, 0x0C, 0xCB],
      [0xC5, 0xE9, 0x0C, 0xCB], [0xC4, 0xE3, 0x79, 0x0C, 0xCA, 0x1B]] : List (List Byte)), decode bs = .notThis) := by
  decide

/-! ### Results: the examples of R105 to R114, each one step -/

theorem test_step_F1 :
    after (step (demoWith old dataA ctlA 0 0 (cellsAt 0x1000 [0xC4, 0xE2, 0x69, 0x0C, 0xCB]))) 1 5 =
      some ([0x3F800000, 0x80000000, 0x7FA00000, 1, 0], 0x1005) := by decide +kernel

theorem test_step_F2 :
    after (step (demoWith old dataA 0 0 0 (cellsAt 0x1000 [0xC4, 0xE3, 0x79, 0x04, 0xCA, 0x1B]))) 1 5 =
      some ([0x3F800000, 0x80000000, 0x7FA00000, 1, 0], 0x1006) := by decide +kernel

theorem test_step_F3 :
    after (step (demoWith old dataA 0 0 0x2000 (cellsAt 0x1000 [0xC4, 0xE2, 0x6D, 0x0C, 0x08] ++
      cellsAt 0x2000 [0, 0, 0, 0, 0, 0, 0, 0, 3, 0, 0, 0, 3, 0, 0, 0, 0, 0, 0, 0, 0, 0, 0, 0, 3, 0, 0, 0, 3, 0, 0, 0]))) 1 9 =
      some ([1, 1, 0x3F800000, 0x3F800000, 0x40000000, 0x40000000, 0x40A00000, 0x40A00000, 0], 0x1005) := by
  decide +kernel

theorem test_step_F4 :
    after (step (demoWith old dataA 0 0 0 (cellsAt 0x1000 [0xC4, 0xE3, 0x7D, 0x04, 0xCA, 0x4E]))) 1 9 =
      some ([0x80000000, 0x3F800000, 1, 0x7FA00000, 0x40800000, 0x40A00000, 0x40000000, 0x40400000, 0], 0x1006) := by
  decide +kernel

theorem test_step_F5 :
    after (step (demoWith old dataA ctlA 5 0 (cellsAt 0x1000 [0x62, 0xF2, 0x6D, 0x09, 0x0C, 0xCB]))) 1 5 =
      some ([0x3F800000, 0xDDDD0001, 0x7FA00000, 0xDDDD0003, 0], 0x1006) := by decide +kernel

/-- R108: four bytes are read, and the bytes after them are not mapped. -/
theorem test_step_F6 :
    after (step (demoWith old dataA 0 0xF0 0x2000 (cellsAt 0x1000 [0x62, 0xF2, 0x6D, 0xB9, 0x0C, 0x08] ++
      cellsAt 0x2000 [0xFE, 0xFF, 0xFF, 0xFF]))) 1 9 =
      some ([0, 0, 0, 0, 0x40800000, 0x40800000, 0x40800000, 0x40800000, 0], 0x1006) := by decide +kernel

theorem test_step_F7 :
    after (step (demoWith old countA0 (vec ((List.range 16).map (7 * · + 3))) 0 0
      (cellsAt 0x1000 [0x62, 0xF2, 0x6D, 0x48, 0x0C, 0xCB]))) 1 16 =
      some ([0xA3, 0xA2, 0xA1, 0xA0, 0xA7, 0xA6, 0xA5, 0xA4, 0xAB, 0xAA, 0xA9, 0xA8, 0xAF, 0xAE, 0xAD, 0xAC], 0x1006) := by
  decide +kernel

/-- R112 with `k1` for `k2`. -/
theorem test_step_F8 :
    after (step (demoWith old dataA 0 0xA 0 (cellsAt 0x1000 [0x62, 0xF3, 0x7D, 0x09, 0x04, 0xCA, 0x00]))) 1 5 =
      some ([0xDDDD0000, 1, 0xDDDD0002, 1, 0], 0x1007) := by decide +kernel

theorem test_step_F9 :
    after (step (demoWith old 0 0 0 0x2000 (cellsAt 0x1000 [0x62, 0xF3, 0x7D, 0x38, 0x04, 0x08, 0x1B] ++
      cellsAt 0x2000 [0x78, 0x56, 0x34, 0x12]))) 1 9 =
      some (List.replicate 8 0x12345678 ++ [0], 0x1007) := by decide +kernel

theorem test_step_F10 :
    after (step (demoWith old countA0 0 0xFF 0 (cellsAt 0x1000 [0x62, 0xF3, 0x7D, 0xC9, 0x04, 0xCA, 0xB1]))) 1 16 =
      some ([0xA1, 0xA0, 0xA3, 0xA2, 0xA5, 0xA4, 0xA7, 0xA6, 0, 0, 0, 0, 0, 0, 0, 0], 0x1007) := by decide +kernel

/-- 95_test_vectors.md 2.8: destination = data = controls. -/
theorem test_same_register :
    after (exec (.vexVar128 1 1 (.reg 1)) (demoWith (vec [2, 3, 0, 1, 9]) 0 0 0 0 [])) 1 5 =
      some ([0, 1, 2, 3, 0], 0x1005) := by decide +kernel

/-! ### Effective addresses (95_test_vectors.md 2.9) -/

/-- `rax` = 1000H, `rcx` = 10H, `rdx` = 100000H, `rbp` = 8000H, `r9` = 20H, `r15` = 8, `rip` = 400000H. -/
def addrState : State :=
  { State.reset with
    rip := 0x400000
    g := #v[0x1000, 0x10, 0x100000, 0, 0, 0x8000, 0, 0, 0, 0x20, 0, 0, 0, 0, 0, 8] }

theorem test_effective_addresses :
    effAddr addrState 1 7 (.sib 2 1 0 (.d8 0x10)) = 0x1050 ∧
    effAddr addrState 1 7 (.base 5 (.d8 0x80)) = 0x7F80 ∧
    effAddr addrState 1 11 (.sibNoBase 0 4 0x1000) = 0x1000 ∧
    effAddr addrState 64 7 (.base 0 (.d8 1)) = 0x1040 ∧
    effAddr addrState 64 9 (.sib 3 9 2 (.d8 0x80)) = 0xFE100 ∧
    effAddr addrState 64 11 (.ripRel 0x100) = 0x40010B ∧
    effAddr addrState 64 12 (.sib 1 15 0 (.d32 0x12345678)) = 0x12346688 := by decide +kernel

/-! ### Exceptions and refusals (95_test_vectors.md 2.10, program 5) -/

/-- Program 5: the mask suppresses no fault, and the fault is at the first byte that is not mapped. -/
theorem test_page_fault_ignores_mask :
    faultOf (step (demoWith old dataA 0 0 0x1003 (cellsAt 0x1000 [0x62, 0xF2, 0x6D, 0x49, 0x0C, 0x08]))) =
      some (.pf 0 0x1006) := by decide +kernel

/-- With `CR0.TS` = 1 the same instruction is `#NM`, not `#PF`. -/
theorem test_task_switched_first :
    faultOf (step { demoWith old dataA 0 0 0x2000 (cellsAt 0x1000 [0x62, 0xF2, 0x6D, 0x49, 0x0C, 0x08]) with cr0 := 9 }) =
      some .nm := by decide +kernel

/-- A valid F5 without AVX512VL. -/
theorem test_missing_avx512vl :
    faultOf (step { demoWith old dataA 0 0 0 (cellsAt 0x1000 [0x62, 0xF2, 0x6D, 0x08, 0x0C, 0xCB]) with
      cfg := ⟨true, true, false, .w16⟩ }) = some .ud := by decide +kernel

/-- Alignment checking at privilege level 3 with a misaligned operand is refused (20_memory.md R42). -/
theorem test_alignment_check_refused :
    refusalOf (step { demoWith old dataA 0 0 0x1001 (cellsAt 0x1000 [0xC4, 0xE2, 0x69, 0x0C, 0x08]) with
      cr0 := 0x40001, rflags := 0x40002, cpl := 3 }) = some .alignmentCheck := by decide +kernel

/-- A base of 2^64 - 16 with a displacement byte of 32 is refused (20_memory.md R48, D22); a sum below 0 is not. -/
theorem test_address_sum_refused :
    refusalOf (exec (.vexVar128 1 2 (.mem (.base 0 (.d8 32)))) (demoWith old dataA 0 0 (2 ^ 64 - 16) [])) =
      some .addressWrap ∧
    faultOf (exec (.vexVar128 1 2 (.mem (.base 0 (.d8 0xE0)))) (demoWith old dataA 0 0 0 [])) =
      some (.pf 0 0xFFFFFFFFFFFFFFE0) := by decide +kernel

/-- A byte that cannot be fetched ends the step as the fetch does. -/
theorem test_fetch_fault :
    faultOf (step (demoWith old dataA 0 0 0 (cellsAt 0x1000 [0xC4, 0xE2, 0x69, 0x0C]))) = some (.pf 0 0x1004) := by
  decide +kernel

/-- The step at reset is refused: the machine is not in 64-bit mode. -/
theorem test_reset_refused : refusalOf (step State.reset) = some .not64BitMode := by decide +kernel

/-! ### The launch: every row's table word runs as the first instruction -/

/-- The match bits of the ten rows, with the number of their bits. -/
def tableWords : List (Nat × Nat) :=
  [(32, 0x0C0102C4), (32, 0x047903C4), (32, 0x0C0502C4), (32, 0x047D03C4), (40, 0x0C00050262), (40, 0x0C20050262),
    (40, 0x0C40050262), (40, 0x04087D0362), (40, 0x04287D0362), (40, 0x04487D0362)]

theorem test_table_words_decode :
    (tableWords.map fun p => (decodeTableWord p.1 p.2).map Instr.form) =
      [some .f1, some .f2, some .f3, some .f4, some .f5, some .f6, some .f7, some .f8, some .f9, some .f10] := by
  decide +kernel

theorem test_table_words_run :
    ∀ p ∈ tableWords, isNext (step (State.reset.withFetchWord p.1 p.2)) = true := by decide +kernel

theorem test_reset_word_result :
    after (step (State.reset.withFetchWord 48 0xCB0C486DF262)) 1 1 = some ([0], 0xFFF6) := by decide +kernel

/-! ### Witnesses: a concrete state and operands that meet the hypotheses of each statement together -/

/-- The demo machine with code at 1000H and 64 bytes of data at 2000H, `rax` = 2000H, `k1` = 5. -/
def wit (code : List Nat) : State :=
  demoWith old dataA ctlA 5 0x2000 (cellsAt 0x1000 code ++ cellsAt 0x2000 (List.range 64))

theorem wit_code (s : State) (bs : List Byte) (h : fetchWindow s bs.length s.rip.toNat = bs) :
    codeAt s s.rip.toNat bs := codeAt_of_fetchWindow s bs _ h

/-- F7 with a memory operand, a base and a scaled displacement byte, under `k1`. -/
def insMem : Instr := .evexVar512 1 2 (.mem (.base 0 (.d8 0)) false) ⟨1, false⟩

theorem witness_DecodeReadsEncodeBack : insMem.wf = true ∧ (Instr.vexImm256 10 (.mem (.ripRel 8)) 0xB1).wf = true := by
  decide
theorem witness_DecodedInstructionUsesItsLength :
    decode [0xC4, 0xE2, 0x69, 0x0C, 0xCB, 0x90] = .instr (.vexVar128 1 2 (.reg 3)) [0x90] := by decide
theorem witness_TwelveBytesAlwaysDecode : 12 ≤ (List.replicate 12 (0x62 : Byte)).length := by decide
theorem witness_DecoderReadsNoFurther :
    decode [0xC4, 0xE2, 0x69, 0x0C, 0xCB] = .instr (.vexVar128 1 2 (.reg 3)) [] ∧
    decode [0x66, 0xC4] = .ud ∧ decode [0x67] = .legacyPrefix ∧ decode [0xC5] = .notThis := by decide

theorem witness_StepRunsDecodedInstruction :
    (wit [0xC4, 0xE2, 0x69, 0x0C, 0xCB]).mode64 = true ∧
    fetchDecode (wit [0xC4, 0xE2, 0x69, 0x0C, 0xCB]) = .instr (.vexVar128 1 2 (.reg 3)) [] := by decide +kernel
theorem witness_StepRunsEncodedInstruction :
    (wit [0xC4, 0xE2, 0x69, 0x0C, 0xCB]).mode64 = true ∧ (Instr.vexVar128 1 2 (.reg 3)).wf = true ∧
    codeAt (wit [0xC4, 0xE2, 0x69, 0x0C, 0xCB]) 0x1000 (encode (.vexVar128 1 2 (.reg 3))) :=
  ⟨by decide +kernel, by decide, wit_code _ _ (by decide +kernel)⟩
theorem witness_VexWSetIsUndefined :
    (wit [0xC4, 0xE2, 0xE9, 0x0C]).mode64 = true ∧ codeAt (wit [0xC4, 0xE2, 0xE9, 0x0C]) 0x1000 [0xC4, 0xE2, 0xE9, 0x0C] ∧
    (0xE9 : Byte).extractLsb' 0 2 = 1#2 ∧ (0xE2 : Byte).extractLsb' 0 5 = 2#5 ∧ (0xE9 : Byte).getLsbD 7 = true :=
  ⟨by decide +kernel, wit_code _ _ (by decide +kernel), by decide, by decide, by decide⟩
theorem witness_ImmediateFormNeedsAllOnesVvvv_vex :
    (wit [0xC4, 0xE3, 0x69, 4]).mode64 = true ∧ codeAt (wit [0xC4, 0xE3, 0x69, 4]) 0x1000 [0xC4, 0xE3, 0x69, 4] ∧
    (0xE3 : Byte).extractLsb' 0 5 = 3#5 ∧ (0x69 : Byte).extractLsb' 0 2 = 1#2 ∧ (0x69 : Byte).extractLsb' 3 4 ≠ 15#4 :=
  ⟨by decide +kernel, wit_code _ _ (by decide +kernel), by decide, by decide, by decide⟩
theorem witness_ImmediateFormNeedsAllOnesVvvv_evex :
    codeAt (wit [0x62, 0xF3, 0x6D, 0x48, 4]) 0x1000 [0x62, 0xF3, 0x6D, 0x48, 4] ∧
    codeAt (wit [0x62, 0xF3, 0x7D, 0x40, 4]) 0x1000 [0x62, 0xF3, 0x7D, 0x40, 4] ∧
    (0xF3 : Byte).extractLsb' 0 4 = 3#4 ∧ (0x6D : Byte).extractLsb' 0 3 = 5#3 ∧ (0x6D : Byte).extractLsb' 3 4 ≠ 15#4 ∧
    (0x7D : Byte).extractLsb' 0 3 = 5#3 ∧ (0x40 : Byte).getLsbD 3 = false :=
  ⟨wit_code _ _ (by decide +kernel), wit_code _ _ (by decide +kernel), by decide, by decide, by decide, by decide,
    by decide⟩
/-- One row of R81 for each clause: `W`, `L'L`, `z` with `aaa`, `V̄'`. -/
theorem witness_ReservedEvexFieldsAreUndefined :
    (wit [0x62, 0xF2, 0xED, 0xC9, 0x0C]).mode64 = true ∧
    codeAt (wit [0x62, 0xF2, 0xED, 0xC9, 0x0C]) 0x1000 [0x62, 0xF2, 0xED, 0xC9, 0x0C] ∧
    codeAt (wit [0x62, 0xF2, 0x6D, 0xE9, 0x0C]) 0x1000 [0x62, 0xF2, 0x6D, 0xE9, 0x0C] ∧
    codeAt (wit [0x62, 0xF2, 0x6D, 0xC8, 0x0C]) 0x1000 [0x62, 0xF2, 0x6D, 0xC8, 0x0C] ∧
    codeAt (wit [0x62, 0xF3, 0x7D, 0x40, 0x04]) 0x1000 [0x62, 0xF3, 0x7D, 0x40, 0x04] ∧
    ((0xED : Byte).extractLsb' 0 3 = 5#3 ∧ (0xED : Byte).getLsbD 7 = true ∧ (0xF2 : Byte).extractLsb' 0 4 = 2#4) ∧
    ((0x6D : Byte).extractLsb' 0 3 = 5#3 ∧ (0xE9 : Byte).extractLsb' 5 2 = 3#2) ∧
    ((0xC8 : Byte).getLsbD 7 = true ∧ (0xC8 : Byte).extractLsb' 0 3 = 0#3) ∧
    ((0x7D : Byte).extractLsb' 0 3 = 5#3 ∧ (0xF3 : Byte).extractLsb' 0 4 = 3#4 ∧ (0x40 : Byte).getLsbD 3 = false) :=
  ⟨by decide +kernel, wit_code _ _ (by decide +kernel), wit_code _ _ (by decide +kernel),
    wit_code _ _ (by decide +kernel), wit_code _ _ (by decide +kernel), by decide, by decide, by decide, by decide⟩
/-- `P0[3:2]` = 01b, and `P1[2]` = 0 (95_test_vectors.md 3.2). -/
theorem witness_ReservedEvexBitsAreUndefined :
    (wit [0x62, 0xF6, 0x6D, 0x48, 0x0C]).mode64 = true ∧
    codeAt (wit [0x62, 0xF6, 0x6D, 0x48, 0x0C]) 0x1000 [0x62, 0xF6, 0x6D, 0x48, 0x0C] ∧
    codeAt (wit [0x62, 0xF2, 0x69, 0x48, 0x0C]) 0x1000 [0x62, 0xF2, 0x69, 0x48, 0x0C] ∧
    (0xF6 : Byte).extractLsb' 2 2 ≠ 0#2 ∧ (0x69 : Byte).getLsbD 2 = false :=
  ⟨by decide +kernel, wit_code _ _ (by decide +kernel), wit_code _ _ (by decide +kernel), by decide, by decide⟩
theorem witness_BroadcastOfRegisterIsUndefined :
    (wit [0x62, 0xF2, 0x6D, 0xD9, 0x0C, 0xCB]).mode64 = true ∧
    codeAt (wit [0x62, 0xF2, 0x6D, 0xD9, 0x0C, 0xCB]) 0x1000 [0x62, 0xF2, 0x6D, 0xD9, 0x0C, 0xCB] ∧
    (0x6D : Byte).extractLsb' 0 3 = 5#3 ∧ (0xF2 : Byte).extractLsb' 0 4 = 2#4 ∧ (0xCB : Byte).extractLsb' 6 2 = 3#2 ∧
    (0xD9 : Byte).getLsbD 4 = true :=
  ⟨by decide +kernel, wit_code _ _ (by decide +kernel), by decide, by decide, by decide, by decide⟩
/-- REX 40H and 4FH are the ends of the forbidden range; 67H is an allowed prefix. -/
theorem witness_NoByteBeforeThePrefix :
    (wit [0x40, 0x62]).mode64 = true ∧ codeAt (wit [0x40, 0x62]) 0x1000 [0x40, 0x62] ∧
    codeAt (wit [0x4F, 0xC5]) 0x1000 [0x4F, 0xC5] ∧ codeAt (wit [0x66, 0xC4]) 0x1000 [0x66, 0xC4] ∧
    codeAt (wit [0x67]) 0x1000 [0x67] ∧ (0x40 ≤ (0x40 : Byte).toNat ∧ (0x4F : Byte).toNat ≤ 0x4F) :=
  ⟨by decide +kernel, wit_code _ _ (by decide +kernel), wit_code _ _ (by decide +kernel),
    wit_code _ _ (by decide +kernel), wit_code _ _ (by decide +kernel), by decide⟩
/-- An EVEX prefix with `pp` = 00b and one with the other map's opcode byte, the first bytes next to the listed ones, and
a REX byte before a byte next to 62H. -/
theorem witness_OtherVexEncodingsAreRefused_others :
    codeAt (wit [0x62, 0xF2, 0x6C, 0x48, 0x0C]) 0x1000 [0x62, 0xF2, 0x6C, 0x48, 0x0C] ∧
    codeAt (wit [0x62, 0xF3, 0x7D, 0x48, 0x0C]) 0x1000 [0x62, 0xF3, 0x7D, 0x48, 0x0C] ∧
    codeAt (wit [0x50]) 0x1000 [0x50] ∧ codeAt (wit [0x3F]) 0x1000 [0x3F] ∧ codeAt (wit [0x4F, 0x63]) 0x1000 [0x4F, 0x63] ∧
    ((0xF2 : Byte).extractLsb' 2 2 = 0#2 ∧ (0x6C : Byte).getLsbD 2 = true ∧ (0x6C : Byte).extractLsb' 0 2 ≠ 1#2) ∧
    ((0xF3 : Byte).extractLsb' 2 2 = 0#2 ∧ (0x7D : Byte).getLsbD 2 = true ∧ (0xF3 : Byte).extractLsb' 0 2 ≠ 2#2) ∧
    ¬ (0x40 ≤ (0x50 : Byte).toNat ∧ (0x50 : Byte).toNat ≤ 0x4F) :=
  ⟨wit_code _ _ (by decide +kernel), wit_code _ _ (by decide +kernel), wit_code _ _ (by decide +kernel),
    wit_code _ _ (by decide +kernel), wit_code _ _ (by decide +kernel), by decide, by decide, by decide⟩
/-- `pp` = 00b, another opcode byte, the other map's opcode byte, and the two-byte prefix. -/
theorem witness_OtherVexEncodingsAreRefused :
    (wit [0xC5]).mode64 = true ∧ codeAt (wit [0xC4, 0xE2, 0x68, 0x0C]) 0x1000 [0xC4, 0xE2, 0x68, 0x0C] ∧
    codeAt (wit [0xC4, 0xE3, 0x79, 0x0C]) 0x1000 [0xC4, 0xE3, 0x79, 0x0C] ∧ codeAt (wit [0xC5]) 0x1000 [0xC5] ∧
    (0x68 : Byte).extractLsb' 0 2 ≠ 1#2 ∧
    ¬ ((0xE3 : Byte).extractLsb' 0 5 = 2#5 ∧ (0x0C : Byte) = 0x0C ∨ (0xE3 : Byte).extractLsb' 0 5 = 3#5 ∧ (0x0C : Byte) = 0x04) :=
  ⟨by decide +kernel, wit_code _ _ (by decide +kernel), wit_code _ _ (by decide +kernel),
    wit_code _ _ (by decide +kernel), by decide, by decide⟩
theorem witness_FetchFaultComesFirst :
    (wit [0xC4, 0xE2]).mode64 = true ∧ codeAt (wit [0xC4, 0xE2]) 0x1000 [0xC4, 0xE2] ∧
    fetchByte (wit [0xC4, 0xE2]) (0x1000 + 2) = .fault (.pf 0 0x1002) ∧ decode [0xC4, 0xE2] = .more :=
  ⟨by decide +kernel, wit_code _ _ (by decide +kernel), rfl, by decide⟩
theorem witness_OnlySixtyFourBitModeRuns : State.reset.mode64 = false := by decide +kernel

/-- A machine with every condition of `CheckUD` violated in turn, all in 64-bit mode. -/
theorem witness_CheckUDRaisesUndefined :
    State.reset.pe = false ∧ (wit []).mode64 = true ∧
    ({ wit [] with cr4 := 0 } : State).osxsave = false ∧ ({ wit [] with xcr0 := 3 } : State).xcr0SseAvx ≠ 3 ∧
    (insMem.form.isEvex = true ∧ ({ wit [] with xcr0 := 7 } : State).xcr0Avx512 ≠ 7) ∧
    ({ wit [] with cfg := ⟨false, false, false, .w16⟩ } : State).mode64 = true := by decide +kernel
theorem witness_MissingCapabilityIsUndefined :
    insMem.form ∈ [Form.f7, .f10] ∧
    ({ wit [] with cfg := ⟨true, false, false, .w16⟩ } : State).cfg.hasAVX512F = false ∧
    ({ wit [] with cfg := ⟨true, false, false, .w16⟩ } : State).mode64 = true := by decide +kernel
theorem witness_TaskSwitchedRaisesNM :
    let s : State := { wit [] with cr0 := 9 }
    s.mode64 = true ∧ s.osxsave = true ∧ s.xcr0SseAvx = 3 ∧ s.xcr0Avx512 = 7 ∧ capable insMem.form s.cfg = true ∧
    s.ts = true := by decide +kernel
theorem witness_EnabledFormFaultsOnlyOnItsOperand :
    enabled insMem.form (demoWith 0 0 0 0 0x3000 []) = true ∧
    faultOf (fetchOf insMem (demoWith 0 0 0 0 0x3000 [])) = some (.pf 0 0x3000) := by decide +kernel

/-- Every form is enabled in the demo machine, and no instruction reaches the top of memory from 1000H. -/
theorem witness_enabled :
    (∀ f ∈ [Form.f1, .f2, .f3, .f4, .f5, .f6, .f7, .f8, .f9, .f10], enabled f (wit []) = true) ∧
    (wit []).rip.toNat + 12 < 2 ^ 64 := by decide +kernel
theorem witness_RegisterFormsComplete :
    registerOnly (.evexVar512 31 30 (.reg 29) ⟨7, true⟩) = true ∧ enabled .f7 (wit []) = true ∧
    (wit []).rip.toNat + instrLen (.evexVar512 31 30 (.reg 29) ⟨7, true⟩) < 2 ^ 64 := by decide +kernel
theorem witness_MemoryFormsComplete :
    operandRange (wit []) insMem = some (0x2000, 64) ∧ enabled insMem.form (wit []) = true ∧
    (wit []).rip.toNat + instrLen insMem < 2 ^ 64 ∧ operandInRange (wit []) insMem = true ∧
    operandAdmitted (wit []) 0x2000 64 = true ∧ isNext (readBytes (wit []) .data 64 0x2000) = true := by decide +kernel

theorem witness_VexVar128Result : enabled .f1 (wit []) = true ∧
    (wit []).rip.toNat + instrLen (.vexVar128 1 2 (.reg 3)) < 2 ^ 64 ∧
    fetchVexRM (wit []) .v128 5 (.reg 3) = .next (readVL (wit []) .v128 3) :=
  ⟨by decide +kernel, by decide +kernel, rfl⟩
theorem witness_VexVar256Result : enabled .f3 (wit []) = true ∧
    (wit []).rip.toNat + instrLen (.vexVar256 1 2 (.mem (.base 0 .none))) < 2 ^ 64 ∧
    isNext (fetchVexRM (wit []) .v256 5 (.mem (.base 0 .none))) = true := by decide +kernel
theorem witness_VexImm128Result : enabled .f2 (wit []) = true ∧
    (wit []).rip.toNat + instrLen (.vexImm128 1 (.reg 2) 0x1B) < 2 ^ 64 ∧
    fetchVexRM (wit []) .v128 6 (.reg 2) = .next (readVL (wit []) .v128 2) :=
  ⟨by decide +kernel, by decide +kernel, rfl⟩
theorem witness_VexImm256Result : enabled .f4 (wit []) = true ∧
    (wit []).rip.toNat + instrLen (.vexImm256 1 (.reg 2) 0x4E) < 2 ^ 64 ∧
    fetchVexRM (wit []) .v256 6 (.reg 2) = .next (readVL (wit []) .v256 2) :=
  ⟨by decide +kernel, by decide +kernel, rfl⟩
theorem witness_EvexVar128Result : enabled .f5 (wit []) = true ∧
    (wit []).rip.toNat + instrLen (.evexVar128 1 2 (.reg 3) ⟨1, false⟩) < 2 ^ 64 ∧
    fetchEvexRM (wit []) .v128 6 (.reg 3) = .next (readVL (wit []) .v128 3) :=
  ⟨by decide +kernel, by decide +kernel, rfl⟩
theorem witness_EvexVar256Result : enabled .f6 (wit []) = true ∧
    (wit []).rip.toNat + instrLen (.evexVar256 1 2 (.mem (.base 0 .none) true) ⟨1, true⟩) < 2 ^ 64 ∧
    isNext (fetchEvexRM (wit []) .v256 6 (.mem (.base 0 .none) true)) = true := by decide +kernel
theorem witness_EvexVar512Result : enabled .f7 (wit []) = true ∧ (wit []).rip.toNat + instrLen insMem < 2 ^ 64 ∧
    isNext (fetchEvexRM (wit []) .v512 7 (.mem (.base 0 (.d8 0)) false)) = true := by decide +kernel
theorem witness_EvexImm128Result : enabled .f8 (wit []) = true ∧
    (wit []).rip.toNat + instrLen (.evexImm128 1 (.reg 2) ⟨1, false⟩ 0) < 2 ^ 64 ∧
    fetchEvexRM (wit []) .v128 7 (.reg 2) = .next (readVL (wit []) .v128 2) :=
  ⟨by decide +kernel, by decide +kernel, rfl⟩
theorem witness_EvexImm256Result : enabled .f9 (wit []) = true ∧
    (wit []).rip.toNat + instrLen (.evexImm256 1 (.mem (.base 0 .none) true) ⟨0, false⟩ 0x1B) < 2 ^ 64 ∧
    isNext (fetchEvexRM (wit []) .v256 7 (.mem (.base 0 .none) true)) = true := by decide +kernel
theorem witness_EvexImm512Result : enabled .f10 (wit []) = true ∧
    (wit []).rip.toNat + instrLen (.evexImm512 1 (.reg 2) ⟨1, true⟩ 0xB1) < 2 ^ 64 ∧
    fetchEvexRM (wit []) .v512 7 (.reg 2) = .next (readVL (wit []) .v512 2) :=
  ⟨by decide +kernel, by decide +kernel, rfl⟩

/-- An instruction that completes, for the statements about a next state (`CompletingFormFrame`,
`CompletingFormAdvancesRip`, `UpperElementsCleared`). -/
theorem witness_completing_form : isNext (exec insMem (wit [])) = true := by decide +kernel
/-- A step that completes, for `NoStepWritesMemory`. -/
theorem witness_NoStepWritesMemory : isNext (step (wit [0xC4, 0xE2, 0x69, 0x0C, 0xCB])) = true := by decide +kernel
/-- A step that completes from a state that meets the invariant. -/
theorem witness_StepKeepsInvariant :
    Inv (wit [0xC4, 0xE2, 0x69, 0x0C, 0xCB]) ∧ isNext (step (wit [0xC4, 0xE2, 0x69, 0x0C, 0xCB])) = true :=
  ⟨⟨by decide +kernel, by decide +kernel, by decide +kernel, by decide +kernel, by decide +kernel⟩, by decide +kernel⟩
theorem witness_PrivilegeLevelHasNoEffect : registerOnly (.vexVar128 1 2 (.reg 3)) = true := by decide
/-- The mask register with other bits above `KL` = 4 of an F5. -/
theorem witness_OnlyTheSelectedMaskBitsAreRead :
    (maskOf (.evexVar128 1 2 (.reg 3) ⟨1, false⟩)).aaa ≠ 0 ∧
    ∀ j < (Instr.evexVar128 1 2 (.reg 3) ⟨1, false⟩).form.vl.kl,
      (readK { wit [] with k := (Vector.replicate 8 0xFFFFFFFFFFFFFFFF).set 1 0xFFF5 } 1).getLsbD j =
        (readK (wit []) 1).getLsbD j := by decide +kernel
theorem witness_PermImmComposes :
    ∀ p < 4, (0xE4 : BitVec 8).extractLsb' (2 * p) 2 =
      (0x1B : BitVec 8).extractLsb' (2 * ((0x1B : BitVec 8).extractLsb' (2 * p) 2).toNat) 2 := by decide
theorem witness_PermImmIsPermVar :
    ∀ j < VL.v128.kl, (dword ctlA j).extractLsb' 0 2 = (0x1B : BitVec 8).extractLsb' (2 * (j % 4)) 2 := by decide +kernel
theorem witness_HighControlBitsIgnored :
    ∀ j < VL.v128.kl, (dword ctlA j).toNat % 4 = (dword (vec [3, 2, 1, 0]) j).toNat % 4 := by decide +kernel
theorem witness_UnmaskedEvexEqualsVex :
    (wit []).rip.toNat + 12 < 2 ^ 64 ∧ enabled .f1 (wit []) = true ∧ enabled .f5 (wit []) = true ∧
    enabled .f3 (wit []) = true ∧ enabled .f6 (wit []) = true ∧ enabled .f2 (wit []) = true ∧
    enabled .f8 (wit []) = true ∧ enabled .f4 (wit []) = true ∧ enabled .f9 (wit []) = true := by decide +kernel
/-- The operands of each clause: a register, and 16 or 32 bytes whose displacement byte is 32 in the VEX form and 2 or 1,
scaled, in the EVEX form. -/
theorem witness_UnmaskedEvexEqualsVex_operands :
    sameOperand (wit []) 16 5 6 (.reg 3) (.reg 3) ∧
    sameOperand (wit []) 16 6 7 (.mem (.base 0 (.d8 32))) (.mem (.base 0 (.d8 2)) false) ∧
    sameOperand (wit []) 32 7 8 (.mem (.base 0 (.d8 32))) (.mem (.base 0 (.d8 1)) false) ∧
    isNext (fetchVexRM (wit []) .v128 6 (.mem (.base 0 (.d8 32)))) = true ∧
    isNext (fetchVexRM (wit []) .v256 7 (.mem (.base 0 (.d8 32)))) = true :=
  ⟨rfl, ⟨rfl, by decide +kernel⟩, ⟨rfl, by decide +kernel⟩, by decide +kernel, by decide +kernel⟩
/-- For `PermutevarIntrinsicsMatch` and `PermuteIntrinsicsMatch`: a mask selector, and instructions that complete. -/
theorem witness_intrinsics :
    (1 : BitVec 3) ≠ 0 ∧ isNext (exec (.evexVar512 1 2 (.reg 3) ⟨1, false⟩) (wit [])) = true ∧
    isNext (exec (.vexImm128 1 (.reg 2) 0x1B) (wit [])) = true := by decide +kernel

theorem witness_EffectiveAddressIsTheSum :
    operandOf insMem = some ⟨.base 0 (.d8 0), 64, 64⟩ ∧
    operandOf (.vexVar256 1 2 (.mem (.base 0 (.d8 1)))) = some ⟨.base 0 (.d8 1), 1, 32⟩ ∧
    operandOf (.evexImm512 1 (.mem (.base 0 (.d8 1)) true) ⟨0, false⟩ 0) = some ⟨.base 0 (.d8 1), 4, 4⟩ ∧
    bcstOf insMem = false ∧ bcstOf (.evexImm512 1 (.mem (.base 0 (.d8 1)) true) ⟨0, false⟩ 0) = true := by decide
/-- The byte values 0 to `n - 1`. -/
def upTo (n : Nat) : List Byte := (List.range n).map (BitVec.ofNat 8)
/-- A misaligned read, and the full operands of each length: a displacement byte of 16 is not scaled in a VEX form (the
last operand that is mapped), and one of -1 is scaled in an EVEX form. -/
theorem witness_OperandReadIsLittleEndian :
    (operandAdmitted (wit []) 0x2001 4 = true ∧ dataBytes (wit []) 0x2001 [1, 2, 3, 4]) ∧
    operandStands (wit []) (addrInt (wit []) 1 6 (.base 0 (.d8 0))) (upTo 16) ∧
    operandStands (wit []) (addrInt (wit []) 1 6 (.base 0 (.d8 32))) ((upTo 64).drop 32) ∧
    (let s := { wit [] with g := (Vector.replicate 16 0).set 0 0x2040 }
     operandStands s (addrInt s 64 7 (.base 0 (.d8 0xFF))) (upTo 64)) :=
  ⟨⟨by decide +kernel, (dataBytes_iff _ _ _).mpr rfl⟩,
    ⟨by decide +kernel, by decide +kernel, (dataBytes_iff _ _ _).mpr rfl⟩,
    ⟨by decide +kernel, by decide +kernel, (dataBytes_iff _ _ _).mpr rfl⟩,
    ⟨by decide +kernel, by decide +kernel, (dataBytes_iff _ _ _).mpr rfl⟩⟩
/-- The four bytes are the last that are mapped. -/
theorem witness_BroadcastCopiesFourBytes :
    operandStands (wit []) (addrInt (wit []) 4 7 (.base 0 (.d8 15))) [60, 61, 62, 63] :=
  ⟨by decide +kernel, by decide +kernel, (dataBytes_iff _ _ _).mpr rfl⟩
/-- The last byte of the operand faults. -/
theorem witness_LowestFaultingByteDecides :
    let s := { wit [] with g := (Vector.replicate 16 0).set 0 0x2001 }
    operandRange s insMem = some (0x2001, 64) ∧ enabled insMem.form s = true ∧ operandInRange s insMem = true ∧
    operandAdmitted s 0x2001 64 = true ∧
    isNext (readBytes s .data 63 0x2001) = true ∧ byteAt s .data (0x2001 + 63) = .fault (.pf 0 0x2040) :=
  ⟨by decide +kernel, by decide +kernel, by decide +kernel, by decide +kernel, by decide +kernel, rfl⟩
theorem witness_MaskSuppressesNoFault :
    faultOf (exec insMem (demoWith 0 0 0 0 0x3000 [])) = some (.pf 0 0x3000) ∧
    faultOf (exec (.evexImm128 1 (.mem (.base 0 .none) true) ⟨1, false⟩ 0) (demoWith 0 0 0 0 0x3000 [])) =
      some (.pf 0 0x3000) := by decide +kernel
/-- The first sum that passes the top: base 2^64 - 64 and a displacement byte of 1, scaled by 64; with a base 64 lower the
sum stays below. -/
theorem witness_OperandRefusals_address :
    (let s := demoWith 0 0 0 0 (2 ^ 64 - 64) []
     operandInRange s (.evexVar512 1 2 (.mem (.base 0 (.d8 1)) false) ⟨1, false⟩) = false ∧ enabled .f7 s = true) ∧
    operandInRange (demoWith 0 0 0 0 (2 ^ 64 - 128) []) (.evexVar512 1 2 (.mem (.base 0 (.d8 1)) false) ⟨1, false⟩) = true := by
  decide +kernel
/-- One state for each clause: misaligned with alignment checking, the first address that wraps, a device, none. -/
theorem witness_OperandRefusals :
    (let s : State := { demoWith 0 0 0 0 0x2001 [] with cr0 := 0x40001, rflags := 0x40002, cpl := 3 }
     operandRange s insMem = some (0x2001, 64) ∧ operandInRange s insMem = true ∧ enabled insMem.form s = true ∧
     s.am = true ∧ s.ac = true ∧ s.cpl = 3 ∧ (0x2001 : Nat) % 64 ≠ 0) ∧
    (let s := demoWith 0 0 0 0 (2 ^ 64 - 63) []
     operandRange s insMem = some (0xFFFFFFFFFFFFFFC1, 64) ∧ operandInRange s insMem = true ∧
     enabled insMem.form s = true ∧
     2 ^ 64 ≤ (0xFFFFFFFFFFFFFFC1 : Word).toNat + 64 - 1) ∧
    (let s : State := { wit [] with mem := ⟨[], [], [⟨0x203F, 0x2FFF⟩]⟩ }
     operandRange s insMem = some (0x2000, 64) ∧ enabled insMem.form s = true ∧ touchesDevice s 0x2000 64 = true) ∧
    operandRange (wit []) insMem = some (0x2000, 64) := by decide +kernel
/-- The last address from which an instruction of 5 bytes cannot complete. -/
theorem witness_RipWrapIsRefused :
    let s : State := { wit [] with rip := 0xFFFFFFFFFFFFFFFB }
    enabled .f1 s = true ∧ isNext (fetchOf (.vexVar128 1 2 (.reg 3)) s) = true ∧
    2 ^ 64 ≤ s.rip.toNat + instrLen (.vexVar128 1 2 (.reg 3)) := by decide +kernel

def endedDone : RunEnd → Bool
  | .done _ => true
  | _ => false

/-- Program 1 of 95_test_vectors.md runs to its end. -/
theorem witness_RunKeepsEnabled :
    endedDone (runTo 0x100C 2 (wit [0xC4, 0xE3, 0x79, 0x04, 0xC8, 0x1B, 0xC4, 0xE3, 0x79, 0x04, 0xD1, 0x1B])) = true := by
  decide +kernel

def endedFault : RunEnd → Option (Fault × Nat)
  | .fault f s => some (f, s.rip.toNat)
  | _ => none

/-- Program 4 of 95_test_vectors.md ends in `#UD` at its second instruction. -/
theorem witness_RunFaultsInTheStateBefore :
    endedFault (runTo 0x100B 2 (wit [0xC4, 0xE3, 0x79, 0x04, 0xC8, 0x1B, 0xC4, 0xE2, 0xE9, 0x0C, 0xCB])) =
      some (.ud, 0x1006) := by decide +kernel

/-- Program 3 of 95_test_vectors.md. -/
def program3 : List Instr :=
  [.evexVar512 1 2 (.reg 3) ⟨1, true⟩, .evexVar128 1 2 (.reg 3) ⟨1, false⟩, .evexVar512 1 1 (.reg 1) ⟨0, false⟩,
    .evexImm512 4 (.reg 1) ⟨2, false⟩ 0x93]

theorem witness_StraightLineProgramIsDone :
    let s := wit [0x62, 0xF2, 0x6D, 0xC9, 0x0C, 0xCB, 0x62, 0xF2, 0x6D, 0x09, 0x0C, 0xCB, 0x62, 0xF2, 0x75, 0x48, 0x0C, 0xC9,
      0x62, 0xF3, 0x7D, 0x4A, 0x04, 0xE1, 0x93]
    (∀ i ∈ program3, i.wf = true ∧ registerOnly i = true ∧ enabled i.form s = true) ∧
    s.rip.toNat + (programBytes program3).length < 2 ^ 64 ∧ codeAt s s.rip.toNat (programBytes program3) :=
  ⟨by decide +kernel, by decide +kernel, wit_code _ _ (by decide +kernel)⟩

end Sys2Proof.Tests
end

/-! The invariant of the machine's state is kept by every step (00_scope.md R9; 10_state.md R17, R21;
92_eei_decisions.md D24). Its one idea: an instruction that completes writes a vector register that exists, because a
VEX form names registers 0 to 15 only and an EVEX form is enabled only where there are 32. -/

namespace Sys2Proof.Machine

/-! ### The vector containers after a write -/

/-- The container written holds the value, cut to `MAXVL` bits. -/
theorem container_writeV_same (s : State) (d : BitVec 5) (x : Vec) :
    (writeV s d x).v[d.toNat]'d.isLt = lowBits (maxvl s.cfg) x := by
  simp [writeV]

/-- Every other container is as before. -/
theorem container_writeV_ne (s : State) (d n : BitVec 5) (x : Vec) (h : n ≠ d) :
    (writeV s d x).v[n.toNat]'n.isLt = s.v[n.toNat]'n.isLt := by
  have hne : d.toNat ≠ n.toNat := fun e => h (BitVec.eq_of_toNat_eq e.symm)
  simp [writeV, hne]

/-! ### The destination exists -/

theorem nvec_eq_of_hasAVX512F {c : Config} (h : c.hasAVX512F = true) : nvec c = 32 := by
  simp [nvec, h]

theorem sixteen_le_nvec (c : Config) : 16 ≤ nvec c := by
  unfold nvec
  split <;> decide

/-- An enabled EVEX form runs on a processor that reports AVX512F (60_exceptions.md R120). -/
theorem hasAVX512F_of_enabled {f : Form} {s : State} (hf : f.isEvex = true) (h : enabled f s = true) :
    s.cfg.hasAVX512F = true := by
  simp only [enabled, Bool.and_eq_true] at h
  obtain ⟨⟨_, hcap⟩, _⟩ := h
  simp only [capable, hf, Bool.not_true, Bool.false_or, Bool.and_eq_true] at hcap
  obtain ⟨⟨_, hflag⟩, _⟩ := hcap
  exact hflag

/-- The four-bit register field of a VEX form names a register below 16. -/
theorem destOf_lt_sixteen {i : Instr} (h : i.form.isEvex = false) : (destOf i).toNat < 16 := by
  have field_lt (d : BitVec 4) : (d.setWidth 5).toNat < 16 := by
    have := d.isLt
    simp only [BitVec.toNat_setWidth]
    omega
  cases i with
  | vexVar128 d _ _ | vexImm128 d _ _ | vexVar256 d _ _ | vexImm256 d _ _ => exact field_lt d
  | evexVar128 | evexVar256 | evexVar512 | evexImm128 | evexImm256 | evexImm512 =>
    simp [Instr.form, Form.isEvex] at h

/-- The destination of an enabled instruction is a register that exists (00_scope.md R9). -/
theorem destOf_lt_nvec {i : Instr} {s : State} (h : enabled i.form s = true) : (destOf i).toNat < nvec s.cfg := by
  cases hf : i.form.isEvex with
  | false => exact (destOf_lt_sixteen hf).trans_le (sixteen_le_nvec s.cfg)
  | true =>
    rw [nvec_eq_of_hasAVX512F (hasAVX512F_of_enabled hf h)]
    exact (destOf i).isLt

/-! ### What keeps the invariant -/

/-- A write to a vector register that exists keeps the invariant. -/
theorem Inv.after_writeV {s : State} (hs : Inv s) {d : BitVec 5} (hd : d.toNat < nvec s.cfg) (x : Vec) :
    Inv (writeV s d x) where
  config := hs.config
  width n := by
    by_cases h : n = d
    · rw [h, readV_writeV_same, container_writeV_same]
    · rw [readV_writeV_ne s d n x h, container_writeV_ne s d n x h]
      exact hs.width n
  absent n hn := by
    have h : n ≠ d := by
      rintro rfl
      exact absurd hd (Nat.not_lt.mpr hn)
    rw [container_writeV_ne s d n x h]
    exact hs.absent n hn
  maskBits := hs.maskBits
  memory := hs.memory

/-- Moving `rip` keeps the invariant, which does not speak of it. -/
theorem Inv.after_advance {s : State} (hs : Inv s) (len : Nat) : Inv (advance s len) where
  config := hs.config
  width := hs.width
  absent := hs.absent
  maskBits := hs.maskBits
  memory := hs.memory

/-- Every instruction that completes keeps the invariant. -/
theorem Inv.after_exec {i : Instr} {s t : State} (hs : Inv s) (h : exec i s = .next t) : Inv t := by
  obtain ⟨hen, _, x, rfl⟩ := exec_next_cases h
  exact (hs.after_writeV (destOf_lt_nvec hen) x).after_advance (instrLen i)

/-- Settles O55: a step that answers a next state is an instruction that completes. -/
theorem stepKeepsInvariant : Obligations.StepKeepsInvariant := by
  unfold Obligations.StepKeepsInvariant
  intro s t hs h
  obtain ⟨_, i, _, _, hexec⟩ := step_next_cases h
  exact hs.after_exec hexec

end Sys2Proof.Machine

/-! The state around an instruction (10_state.md). Its one idea: all ten forms are one sequence, the steps of
40_vpermilps_common.md R94, in which a VEX form is a form without a writemask. What any form writes, what it leaves
unchanged and what it does not read are then facts about the parts of that sequence. -/

namespace Sys2Proof.Machine

open Host (Outcome)

/-! ### What an instruction writes -/

/-- The vector an instruction computes from its `r/m` operand `x`, before masking (R89, R90). -/
def permutedOf (i : Instr) (s : State) (x : Vec) : Vec :=
  match i with
  | .vexVar128 _ s1 _ | .vexVar256 _ s1 _ => permVar i.form.vl (readVL s i.form.vl (s1.setWidth 5)) x
  | .evexVar128 _ s1 _ _ | .evexVar256 _ s1 _ _ | .evexVar512 _ s1 _ _ =>
    permVar i.form.vl (readVL s i.form.vl s1) x
  | .vexImm128 _ _ imm8 | .vexImm256 _ _ imm8 => permImm i.form.vl x imm8
  | .evexImm128 _ _ _ imm8 | .evexImm256 _ _ _ imm8 | .evexImm512 _ _ _ imm8 => permImm i.form.vl x imm8

/-- The whole vector an instruction writes into its destination: the permuted one under its writemask (R92, R93). -/
def resultOf (i : Instr) (s : State) (x : Vec) : Vec :=
  applyMask i.form.vl (readVL s i.form.vl (destOf i)) (permutedOf i s x) (readK s (maskOf i).aaa) (maskOf i)

theorem ofDwords_congr {n : Nat} {f g : Nat → Dword} (h : ∀ j < n, f j = g j) : ofDwords n f = ofDwords n g := by
  apply vec_ext
  intro j hj
  rw [dword_ofDwords n f j hj, dword_ofDwords n g j hj]
  split
  · exact h j ‹j < n›
  · rfl

/-- The permuted vector has `KL` elements and zeros above. -/
theorem permutedOf_eq_ofDwords (i : Instr) (s : State) (x : Vec) :
    ∃ f, permutedOf i s x = ofDwords i.form.vl.kl f := by
  cases i <;> exact ⟨_, rfl⟩

/-- Without a writemask the permuted vector is written as it is (10_state.md R22). -/
theorem resultOf_eq_permutedOf {i : Instr} (h : (maskOf i).aaa = 0) (s : State) (x : Vec) :
    resultOf i s x = permutedOf i s x := by
  obtain ⟨f, hf⟩ := permutedOf_eq_ofDwords i s x
  rw [resultOf, hf]
  refine ofDwords_congr fun j hj => ?_
  rw [dword_ofDwords _ _ _ (hj.trans_le (VL.kl_le _))]
  simp [h, hj]

/-- Every form is the sequence of R94: check, fetch the `r/m` operand, write the result and `rip`. -/
theorem exec_eq_sequence (i : Instr) (s : State) :
    exec i s =
      andThen (precheck i.form s) fun _ =>
      andThen (fetchOf i s) fun x =>
      complete s (destOf i) (resultOf i s x) (instrLen i) := by
  have hres := fun h => resultOf_eq_permutedOf (i := i) h s
  cases i with
  | vexVar128 | vexImm128 | vexVar256 | vexImm256 =>
    simp only [hres rfl]
    rfl
  | evexVar128 | evexVar256 | evexVar512 | evexImm128 | evexImm256 | evexImm512 => rfl

/-- The next state of an instruction, with the value it writes. -/
theorem exec_next_iff {i : Instr} {s t : State} :
    exec i s = .next t ↔
      enabled i.form s = true ∧ s.rip.toNat + instrLen i < 2 ^ 64 ∧
        ∃ x, fetchOf i s = .next x ∧ t = advance (writeV s (destOf i) (resultOf i s x)) (instrLen i) := by
  simp only [exec_eq_sequence, andThen_next_iff, complete_next_iff, ← precheck_next_iff]
  constructor
  · rintro ⟨_, hcheck, x, hfetch, hrip, ht⟩
    exact ⟨hcheck, hrip, x, hfetch, ht⟩
  · rintro ⟨hcheck, hrip, x, hfetch, ht⟩
    exact ⟨(), hcheck, x, hfetch, hrip, ht⟩

/-- An enabled instruction whose operand can be fetched does what completing does. -/
theorem exec_eq_complete {i : Instr} {s : State} {x : Vec} (hen : enabled i.form s = true)
    (hfetch : fetchOf i s = .next x) : exec i s = complete s (destOf i) (resultOf i s x) (instrLen i) := by
  rw [exec_eq_sequence, (precheck_next_iff _ _).mpr hen, hfetch, andThen_next, andThen_next]

theorem complete_eq_refused {s : State} {len : Nat} (h : 2 ^ 64 ≤ s.rip.toNat + len) (d : BitVec 5) (x : Vec) :
    complete s d x len = .refused .ripWrap := if_pos h

/-! ### The frame, and the elements above the vector length -/

@[simp] theorem byteAt_advance (s : State) (len : Nat) (acc : Access) (a : Nat) :
    byteAt (advance s len) acc a = byteAt s acc a := rfl

@[simp] theorem byteAt_writeV (s : State) (d : BitVec 5) (x : Vec) (acc : Access) (a : Nat) :
    byteAt (writeV s d x) acc a = byteAt s acc a := rfl

/-- Settles O34: the next state is the state before with `V[d]` and `rip` written. -/
theorem completingFormFrame : Obligations.CompletingFormFrame := by
  unfold Obligations.CompletingFormFrame
  intro i s t h
  obtain ⟨_, _, x, rfl⟩ := exec_next_cases h
  have hother : ∀ n, n ≠ destOf i → readV (writeV s (destOf i) x) n = readV s n :=
    fun n => readV_writeV_ne s (destOf i) n x
  simpa using hother

/-- A vector built from `n` elements holds nothing above them. -/
theorem dword_ofDwords_of_le {n j : Nat} (h : n ≤ j) (f : Nat → Dword) : dword (ofDwords n f) j = 0 := by
  apply BitVec.eq_of_getLsbD_eq
  intro b _
  have hb : ¬ 32 * j + b < 32 * n := by omega
  simp [dword, getLsbD_ofDwords, hb]

/-- Cutting a vector leaves an element that is 0 as it is. -/
theorem dword_lowBits_eq_zero {x : Vec} {j : Nat} (h : dword x j = 0) (n : Nat) : dword (lowBits n x) j = 0 := by
  apply BitVec.eq_of_getLsbD_eq
  intro b hb
  have hbit : x.getLsbD (32 * j + b) = false := by
    simpa [dword, hb] using congrArg (·.getLsbD b) h
  simp [dword, getLsbD_lowBits, hbit]

/-- What an instruction writes is 0 from element `KL` on, merging-masking included (R93). -/
theorem dword_resultOf_of_kl_le {i : Instr} {j : Nat} (h : i.form.vl.kl ≤ j) (s : State) (x : Vec) :
    dword (resultOf i s x) j = 0 := dword_ofDwords_of_le h _

/-- Settles O37: the destination reads as the value written, which has zeros above the vector length. -/
theorem upperElementsCleared : Obligations.UpperElementsCleared := by
  unfold Obligations.UpperElementsCleared
  intro i s t h j hj
  obtain ⟨_, _, x, _, rfl⟩ := exec_next_iff.mp h
  rw [readV_advance, readV_writeV_same]
  exact dword_lowBits_eq_zero (dword_resultOf_of_kl_le hj s x) _

/-- Settles O54: an enabled form whose operand is fetched comes to completing, which refuses. -/
theorem ripWrapIsRefused : Obligations.RipWrapIsRefused := by
  unfold Obligations.RipWrapIsRefused
  intro i s x hen hfetch hwrap
  rw [exec_eq_complete hen hfetch, complete_eq_refused hwrap]

/-! ### What an instruction does not read

`MXCSR` is read by no part of the sequence, and the opmask file by the masking alone. So both are replaced at once, and
each statement keeps the other as it is. -/

/-- The state with another opmask file and another `MXCSR`. -/
def State.withMasksAndMxcsr (s : State) (k : Vector Word 8) (mx : BitVec 32) : State :=
  { s with k := k, mxcsr := mx }

section Unread
variable (s : State) (k : Vector Word 8) (mx : BitVec 32)

@[simp] theorem readVL_withMasksAndMxcsr (vl : VL) (n : BitVec 5) :
    readVL (s.withMasksAndMxcsr k mx) vl n = readVL s vl n := rfl
@[simp] theorem byteAt_withMasksAndMxcsr (acc : Access) (a : Nat) :
    byteAt (s.withMasksAndMxcsr k mx) acc a = byteAt s acc a := rfl
@[simp] theorem precheck_withMasksAndMxcsr (f : Form) : precheck f (s.withMasksAndMxcsr k mx) = precheck f s := rfl
@[simp] theorem alignmentChecked_withMasksAndMxcsr :
    (s.withMasksAndMxcsr k mx).alignmentChecked = s.alignmentChecked := rfl
@[simp] theorem touchesDevice_withMasksAndMxcsr (a n : Nat) :
    touchesDevice (s.withMasksAndMxcsr k mx) a n = touchesDevice s a n := rfl
@[simp] theorem addressInRange_withMasksAndMxcsr (n len : Nat) (a : Addr) :
    addressInRange (s.withMasksAndMxcsr k mx) n len a = addressInRange s n len a := rfl
@[simp] theorem effAddr_withMasksAndMxcsr (n8 : Word) (len : Nat) (a : Addr) :
    effAddr (s.withMasksAndMxcsr k mx) n8 len a = effAddr s n8 len a := rfl

@[simp] theorem readBytes_withMasksAndMxcsr (acc : Access) (n a : Nat) :
    readBytes (s.withMasksAndMxcsr k mx) acc n a = readBytes s acc n a := by
  induction n generalizing a with
  | zero => rfl
  | succ n ih => simp only [readBytes, byteAt_withMasksAndMxcsr, ih]

@[simp] theorem operandAt_withMasksAndMxcsr (factor len n : Nat) (a : Addr) :
    operandAt (s.withMasksAndMxcsr k mx) factor len a n = operandAt s factor len a n := by
  simp [operandAt, operandRead]

@[simp] theorem fetchVexRM_withMasksAndMxcsr (vl : VL) (len : Nat) (rm : VexRM) :
    fetchVexRM (s.withMasksAndMxcsr k mx) vl len rm = fetchVexRM s vl len rm := by
  cases rm <;> simp [fetchVexRM]

@[simp] theorem fetchEvexRM_withMasksAndMxcsr (vl : VL) (len : Nat) (rm : EvexRM) :
    fetchEvexRM (s.withMasksAndMxcsr k mx) vl len rm = fetchEvexRM s vl len rm := by
  cases rm <;> simp [fetchEvexRM]

@[simp] theorem fetchOf_withMasksAndMxcsr (i : Instr) : fetchOf i (s.withMasksAndMxcsr k mx) = fetchOf i s := by
  cases i <;> simp [fetchOf]

@[simp] theorem permutedOf_withMasksAndMxcsr (i : Instr) (x : Vec) :
    permutedOf i (s.withMasksAndMxcsr k mx) x = permutedOf i s x := by
  cases i <;> rfl

end Unread

/-- Masking reads bits `KL-1:0` of the mask and no others, and none with `aaa` = 000b (10_state.md R21, R22). -/
theorem applyMask_congr {vl : VL} {mask mask' : Word} {m : WriteMask}
    (h : m.aaa ≠ 0 → ∀ j < vl.kl, mask'.getLsbD j = mask.getLsbD j) (old tmp : Vec) :
    applyMask vl old tmp mask' m = applyMask vl old tmp mask m := by
  refine ofDwords_congr fun j hj => ?_
  by_cases h0 : m.aaa = 0
  · simp [h0]
  · rw [h h0 j hj]

/-- `mapNext` reaches the last part of a sequence. -/
theorem mapNext_andThen {α : Type} (f : State → State) (o : Outcome α Fault Refusal)
    (c : α → Outcome State Fault Refusal) : mapNext f (andThen o c) = andThen o fun a => mapNext f (c a) := by
  cases o <;> rfl

theorem complete_withMasksAndMxcsr (s : State) (k : Vector Word 8) (mx : BitVec 32) (d : BitVec 5) (x : Vec)
    (len : Nat) :
    complete (s.withMasksAndMxcsr k mx) d x len = mapNext (·.withMasksAndMxcsr k mx) (complete s d x len) := by
  rw [complete, complete, apply_ite (mapNext _)]
  rfl

/-- With any `MXCSR`, and any opmask file that has the same selected mask bits, an instruction has the same outcome but
for these two, which stay as they are. -/
theorem exec_withMasksAndMxcsr {i : Instr} {s : State} {k : Vector Word 8} {mx : BitVec 32}
    (h : (maskOf i).aaa ≠ 0 → ∀ j < i.form.vl.kl,
      (readK (s.withMasksAndMxcsr k mx) (maskOf i).aaa).getLsbD j = (readK s (maskOf i).aaa).getLsbD j) :
    exec i (s.withMasksAndMxcsr k mx) = mapNext (·.withMasksAndMxcsr k mx) (exec i s) := by
  have hres : ∀ x, resultOf i (s.withMasksAndMxcsr k mx) x = resultOf i s x := fun x => by
    simp only [resultOf, readVL_withMasksAndMxcsr, permutedOf_withMasksAndMxcsr]
    exact applyMask_congr h _ _
  simp only [exec_eq_sequence, mapNext_andThen, precheck_withMasksAndMxcsr, fetchOf_withMasksAndMxcsr, hres,
    complete_withMasksAndMxcsr]

/-- `mapNext` applies its function to nothing but the next state that the outcome holds. -/
theorem mapNext_congr {f g : State → State} {o : Outcome State Fault Refusal} (h : ∀ t, o = .next t → f t = g t) :
    mapNext f o = mapNext g o := by
  cases o with
  | next t => exact congrArg Outcome.next (h t rfl)
  | fault | refused => rfl

/-- Settles O38: the opmask file is kept and `MXCSR` replaced. -/
theorem mxcsrHasNoEffect : Obligations.MxcsrHasNoEffect := by
  unfold Obligations.MxcsrHasNoEffect
  intro i s mx
  refine (exec_withMasksAndMxcsr (k := s.k) (mx := mx) fun _ _ _ => rfl).trans (mapNext_congr fun t ht => ?_)
  obtain ⟨_, _, x, rfl⟩ := exec_next_cases ht
  rfl

/-- Settles O40: `MXCSR` is kept and the opmask file replaced. -/
theorem onlyTheSelectedMaskBitsAreRead : Obligations.OnlyTheSelectedMaskBitsAreRead := by
  unfold Obligations.OnlyTheSelectedMaskBitsAreRead
  intro i s k h
  refine (exec_withMasksAndMxcsr (mx := s.mxcsr) h).trans (mapNext_congr fun t ht => ?_)
  obtain ⟨_, _, x, rfl⟩ := exec_next_cases ht
  rfl

/-! ### The reset state (10_state.md R32) -/

@[simp] theorem lowBits_zero {w : Nat} (n : Nat) : lowBits n 0#w = 0#w := by simp [lowBits]

@[simp] theorem container_reset (n : BitVec 5) : State.reset.v[n.toNat]'n.isLt = 0 := by simp [State.reset]

@[simp] theorem readV_reset (n : BitVec 5) : readV State.reset n = 0 := by simp [readV]

@[simp] theorem maskContainer_reset (n : BitVec 3) : State.reset.k[n.toNat]'n.isLt = 0 := by simp [State.reset]

@[simp] theorem readK_reset (n : BitVec 3) : readK State.reset n = 0 := by simp [readK]

/-- Every general register but `rdx`, which holds the processor signature, is 0. -/
theorem readG_reset_of_ne {n : BitVec 4} (h : n ≠ 2) : readG State.reset n = 0 := by
  have hne : 2 ≠ n.toNat := fun e => h (BitVec.eq_of_toNat_eq e.symm)
  simp [readG, State.reset, hne]

/-- `CR0.PE` is 0 at reset, so the first line of `CheckUD` raises `#UD` (60_exceptions.md R123). -/
theorem precheck_reset (f : Form) : precheck f State.reset = .fault .ud := rfl

theorem exec_reset (i : Instr) : exec i State.reset = .fault .ud := by
  rw [exec_eq_sequence, precheck_reset, andThen_fault]

/-- The step is refused outside 64-bit mode, and reset is not in it (92_eei_decisions.md D4). -/
theorem step_reset : step State.reset = .refused .not64BitMode := if_pos rfl

/-- Settles O56: every container is 0, so nothing stands above the widths, and no byte is listed. -/
theorem resetStateMeetsInvariant : Obligations.ResetStateMeetsInvariant where
  config := rfl
  width n := by rw [readV_reset, container_reset]
  absent n _ := container_reset n
  maskBits n := by rw [readK_reset, maskContainer_reset]
  memory := wf_reset

/-- Settles O57, row by row of the table. -/
theorem resetTable : Obligations.ResetTable := by
  unfold Obligations.ResetTable
  exact ⟨readV_reset, readK_reset, fun _ => readG_reset_of_ne, rfl, rfl, rfl, rfl, rfl, rfl, rfl, rfl, rfl,
    exec_reset, step_reset⟩

end Sys2Proof.Machine

/-! The encoding is read back (30_encoding.md R55 to R80). Its one idea: the decoder takes each byte of an encoding
apart into the fields the encoder put into it, so the proof follows the bytes: displacement, addressing form, `r/m`
operand, then the VEX and EVEX bytes. A step at encoded bytes then runs the instruction. -/

namespace Sys2Proof

/-! ### The fields of each byte -/

theorem modRMByte_fields : ∀ (mod : BitVec 2) (reg rm : BitVec 3),
    (modRMByte mod reg rm).extractLsb' 6 2 = mod ∧ (modRMByte mod reg rm).extractLsb' 3 3 = reg ∧
      (modRMByte mod reg rm).extractLsb' 0 3 = rm := by
  decide

theorem sibByte_fields : ∀ (scale : BitVec 2) (index base : BitVec 3),
    (sibByte scale index base).extractLsb' 6 2 = scale ∧ (sibByte scale index base).extractLsb' 3 3 = index ∧
      (sibByte scale index base).extractLsb' 0 3 = base := modRMByte_fields

/-- VEX byte 1 (R60); the three bits above `map` are 0. -/
theorem vexByte1_fields : ∀ (r x b : Bool) (map : BitVec 2),
    (vexByte1 r x b map).extractLsb' 0 2 = map ∧ (vexByte1 r x b map).extractLsb' 2 3 = 0#3 ∧
      (vexByte1 r x b map).getLsbD 7 = !r ∧ (vexByte1 r x b map).getLsbD 6 = !x ∧
      (vexByte1 r x b map).getLsbD 5 = !b := by
  decide

/-- VEX byte 2 (R60, R61): `pp` = 01b and `W` = 0. -/
theorem vexByte2_fields : ∀ (v : BitVec 4) (long : Bool),
    (vexByte2 v long).extractLsb' 0 2 = 1#2 ∧ (vexByte2 v long).getLsbD 7 = false ∧
      (vexByte2 v long).extractLsb' 3 4 = ~~~v ∧ (vexByte2 v long).getLsbD 2 = long := by
  decide

/-- EVEX `P0` (R63); the two bits above `map` are 0. -/
theorem evexP0_fields : ∀ (r x b r' : Bool) (map : BitVec 2),
    (evexP0 r x b r' map).extractLsb' 0 2 = map ∧ (evexP0 r x b r' map).extractLsb' 2 2 = 0#2 ∧
      (evexP0 r x b r' map).getLsbD 7 = !r ∧ (evexP0 r x b r' map).getLsbD 6 = !x ∧
      (evexP0 r x b r' map).getLsbD 5 = !b ∧ (evexP0 r x b r' map).getLsbD 4 = !r' := by
  decide

/-- EVEX `P1` (R63): `pp` = 01b, bit 2 is 1 and `W` = 0. -/
theorem evexP1_fields : ∀ v : BitVec 4,
    (evexP1 v).extractLsb' 0 2 = 1#2 ∧ (evexP1 v).getLsbD 2 = true ∧ (evexP1 v).getLsbD 7 = false ∧
      (evexP1 v).extractLsb' 3 4 = ~~~v := by
  decide

/-- EVEX `P2` (R63). -/
theorem evexP2_fields (m : WriteMask) (vl : VL) (bcst v' : Bool) :
    (evexP2 m vl bcst v').extractLsb' 0 3 = m.aaa ∧ (evexP2 m vl bcst v').getLsbD 7 = m.z ∧
      evexVL ((evexP2 m vl bcst v').extractLsb' 5 2) = some vl ∧ (evexP2 m vl bcst v').getLsbD 4 = bcst ∧
      (evexP2 m vl bcst v').getLsbD 3 = !v' := by
  obtain ⟨aaa, z⟩ := m
  cases vl <;> revert aaa z bcst v' <;> decide

/-- A register number of a VEX form from its extension bit and its three-bit field (R69). -/
theorem registerBit_append_field : ∀ d : BitVec 4, BitVec.ofBool (d.getLsbD 3) ++ d.extractLsb' 0 3 = d := by
  decide

/-- A register number of an EVEX form from its two extension bits and its three-bit field (R69, R71). -/
theorem registerBits_append_field : ∀ d : BitVec 5,
    BitVec.ofBool (d.getLsbD 4) ++ BitVec.ofBool (d.getLsbD 3) ++ d.extractLsb' 0 3 = d := by
  decide

/-- The second source of an EVEX form from `V'` and `vvvv` (R69). -/
theorem registerBit_append_vvvv : ∀ v : BitVec 5, BitVec.ofBool (v.getLsbD 4) ++ v.extractLsb' 0 4 = v := by
  decide

/-! ### Displacement and addressing form -/

/-- Four bytes of a word, lowest first, are its 32 bits (20_memory.md R39). -/
theorem le32_extractLsb' {w : Nat} (x : BitVec w) :
    le32 (x.extractLsb' 0 8) (x.extractLsb' 8 8) (x.extractLsb' 16 8) (x.extractLsb' 24 8) = x.extractLsb' 0 32 := by
  have high16 : x.extractLsb' 24 8 ++ x.extractLsb' 16 8 = x.extractLsb' 16 16 :=
    BitVec.extractLsb'_append_extractLsb'_eq_extractLsb' rfl
  have high24 : x.extractLsb' 16 16 ++ x.extractLsb' 8 8 = x.extractLsb' 8 24 :=
    BitVec.extractLsb'_append_extractLsb'_eq_extractLsb' rfl
  rw [le32, high16, high24]
  exact BitVec.extractLsb'_append_extractLsb'_eq_extractLsb' rfl

theorem takeDisp32_bytes (mk : BitVec 32 → Addr) (d : BitVec 32) (rest : List Byte) :
    takeDisp32 mk ((Disp.d32 d).bytes ++ rest) = some (mk d, rest) := by
  simp [Disp.bytes, takeDisp32, le32_extractLsb']

theorem takeDisp_bytes (mk : Disp → Addr) (disp : Disp) (rest : List Byte) :
    takeDisp disp.mod mk (disp.bytes ++ rest) = some (mk disp, rest) := by
  cases disp with
  | none | d8 => rfl
  | d32 => simp [Disp.bytes, Disp.mod, takeDisp, le32_extractLsb']

theorem Disp.mod_eq_zero_iff (disp : Disp) : disp.mod = 0#2 ↔ disp = .none := by
  cases disp <;> simp [Disp.mod]

/-- A base whose low bits are 101b needs a displacement (R73, R74). -/
theorem Addr.wf_sib_iff {scale : BitVec 2} {index b : BitVec 4} {disp : Disp} :
    (Addr.sib scale index b disp).wf = true ↔ ¬(disp.mod = 0#2 ∧ b.extractLsb' 0 3 = 5#3) := by
  simp [Addr.wf, Disp.mod_eq_zero_iff, imp_iff_not_or]

/-- A base whose low bits are 100b needs a SIB byte as well (R72). -/
theorem Addr.wf_base_iff {b : BitVec 4} {disp : Disp} :
    (Addr.base b disp).wf = true ↔ b.extractLsb' 0 3 ≠ 4#3 ∧ ¬(disp.mod = 0#2 ∧ b.extractLsb' 0 3 = 5#3) := by
  simp [Addr.wf, Disp.mod_eq_zero_iff, imp_iff_not_or]

/-- Zeroing-masking needs a writemask (R66). -/
theorem WriteMask.wf_iff (m : WriteMask) : m.wf = true ↔ ¬(m.z = true ∧ m.aaa = 0#3) := by
  simp [WriteMask.wf, imp_iff_not_or]

theorem Disp.mod_ne_three (disp : Disp) : disp.mod ≠ 3#2 := by
  cases disp <;> simp [Disp.mod]

/-- Only a register operand has `mod` = 11b (R68). -/
theorem Addr.mod_ne_three (a : Addr) : a.bits.mod ≠ 3#2 := by
  cases a with
  | base _ disp | sib _ _ _ disp => exact disp.mod_ne_three
  | sibNoBase | ripRel => simp [Addr.bits]

/-- R72 to R75: a well-formed addressing form is read back from its bits and the bytes after ModRM. -/
theorem decodeAddr_bits {a : Addr} (h : a.wf = true) (rest : List Byte) :
    decodeAddr a.bits.x a.bits.b a.bits.mod a.bits.rm (a.bits.tail ++ rest) = some (a, rest) := by
  cases a with
  | base b disp =>
    obtain ⟨hsib, hdisp⟩ := Addr.wf_base_iff.mp h
    simp only [Addr.bits, decodeAddr, if_neg hsib, if_neg hdisp, registerBit_append_field, takeDisp_bytes]
  | sib scale index b disp =>
    simp only [Addr.bits, decodeAddr, List.cons_append, if_true, sibByte_fields, if_neg (Addr.wf_sib_iff.mp h),
      registerBit_append_field, takeDisp_bytes]
  | sibNoBase scale index disp =>
    simp only [Addr.bits, decodeAddr, List.cons_append, if_true, sibByte_fields, and_self, registerBit_append_field,
      takeDisp32_bytes]
  | ripRel disp => exact takeDisp32_bytes .ripRel disp rest

/-! ### The `r/m` operand -/

theorem decodeModRM_reg (x b : Bool) (reg rm : BitVec 3) (rest : List Byte) :
    decodeModRM x b (modRMByte 3#2 reg rm :: rest) = some (reg, .reg rm, rest) := by
  simp only [decodeModRM, modRMByte_fields, if_true]

theorem decodeModRM_mem {a : Addr} (h : a.wf = true) (reg : BitVec 3) (rest : List Byte) :
    decodeModRM a.bits.x a.bits.b (modRMByte a.bits.mod reg a.bits.rm :: (a.bits.tail ++ rest)) =
      some (reg, .mem a, rest) := by
  simp only [decodeModRM, modRMByte_fields, if_neg a.mod_ne_three, decodeAddr_bits h, Option.map_some]

/-- The `r/m` operand of a VEX form is read back (R70). -/
theorem decodeModRM_vex {rm : VexRM} (h : rm.wf = true) (reg : BitVec 3) (rest : List Byte) :
    ∃ raw : RawRM, raw.toVex rm.bits.b = rm ∧
      decodeModRM rm.bits.x rm.bits.b (modRMByte rm.bits.mod reg rm.bits.rm :: (rm.bits.tail ++ rest)) =
        some (reg, raw, rest) := by
  cases rm with
  | reg m => exact ⟨.reg (m.extractLsb' 0 3), congrArg VexRM.reg (registerBit_append_field m), decodeModRM_reg ..⟩
  | mem a => exact ⟨.mem a, rfl, decodeModRM_mem h reg rest⟩

/-- The `r/m` operand of an EVEX form is read back (R67, R71). -/
theorem decodeModRM_evex {rm : EvexRM} (h : rm.wf = true) (reg : BitVec 3) (rest : List Byte) :
    ∃ raw : RawRM, raw.toEvex rm.bits.x rm.bits.b rm.bcst = rm ∧
      decodeModRM rm.bits.x rm.bits.b (modRMByte rm.bits.mod reg rm.bits.rm :: (rm.bits.tail ++ rest)) =
        some (reg, raw, rest) := by
  cases rm with
  | reg m => exact ⟨.reg (m.extractLsb' 0 3), congrArg EvexRM.reg (registerBits_append_field m), decodeModRM_reg ..⟩
  | mem a bcst => exact ⟨.mem a, rfl, decodeModRM_mem h reg rest⟩

/-- `EVEX.b` with a register operand is the reserved case (R67), which the encoder never writes. -/
theorem EvexRM.not_broadcast_of_register (rm : EvexRM) : ¬(rm.bits.mod = 3#2 ∧ rm.bcst = true) := by
  cases rm with
  | reg => simp [EvexRM.bcst]
  | mem a => exact fun ⟨hmod, _⟩ => a.mod_ne_three hmod

/-! ### The VEX and EVEX encodings -/

/-- C4H begins a VEX form, so the VEX decoder reads what follows it. -/
theorem decode_vexPrefix (bs : List Byte) : decode (0xC4#8 :: bs) = decodeVex bs := rfl

/-- 62H begins an EVEX form, so the EVEX decoder reads what follows it. -/
theorem decode_evexPrefix (bs : List Byte) : decode (0x62#8 :: bs) = decodeEvex bs := rfl

theorem opKind_var : opKind 2#2 0x0C#8 = some .var := rfl

theorem opKind_imm : opKind 3#2 0x04#8 = some .imm := rfl

/-- F1 and F3 (R57, R61). -/
theorem decode_encodeVex_var {rm : VexRM} (h : rm.wf = true) (long : Bool) (d s1 : BitVec 4) (rest : List Byte) :
    decode (encodeVex 2#2 0x0C#8 long d s1 rm ++ rest) = .instr (vexVarOf long d s1 rm) rest := by
  obtain ⟨raw, hraw, hmodrm⟩ := decodeModRM_vex h (d.extractLsb' 0 3) rest
  simp only [encodeVex, List.cons_append, List.nil_append, decode_vexPrefix, decodeVex,
    vexByte1_fields, vexByte2_fields, opKind_var, Bool.not_not, hmodrm, hraw, registerBit_append_field]
  simp

/-- F2 and F4 (R57, R61, R78). -/
theorem decode_encodeVex_imm {rm : VexRM} (h : rm.wf = true) (long : Bool) (d : BitVec 4) (imm8 : BitVec 8)
    (rest : List Byte) :
    decode (encodeVex 3#2 0x04#8 long d 0#4 rm ++ [imm8] ++ rest) = .instr (vexImmOf long d rm imm8) rest := by
  obtain ⟨raw, hraw, hmodrm⟩ := decodeModRM_vex h (d.extractLsb' 0 3) (imm8 :: rest)
  simp only [encodeVex, List.append_assoc, List.cons_append, List.nil_append, decode_vexPrefix, decodeVex,
    vexByte1_fields, vexByte2_fields, opKind_imm, Bool.not_not, hmodrm, hraw, registerBit_append_field]
  simp

/-- F5 to F7 (R57, R64). -/
theorem decode_encodeEvex_var {rm : EvexRM} {m : WriteMask} (h : rm.wf = true) (hm : m.wf = true) (vl : VL)
    (d s1 : BitVec 5) (rest : List Byte) :
    decode (encodeEvex 2#2 0x0C#8 vl d s1 rm m ++ rest) = .instr (evexVarOf vl d s1 rm m) rest := by
  obtain ⟨raw, hraw, hmodrm⟩ := decodeModRM_evex h (d.extractLsb' 0 3) rest
  simp only [encodeEvex, List.cons_append, List.nil_append, decode_evexPrefix, decodeEvex,
    evexP0_fields, evexP1_fields, evexP2_fields, modRMByte_fields, opKind_var, Bool.not_not, BitVec.not_not,
    if_neg (m.wf_iff.mp hm), if_neg rm.not_broadcast_of_register, hmodrm, hraw, registerBits_append_field,
    registerBit_append_vvvv]
  simp

/-- F8 to F10 (R57, R64, R78). -/
theorem decode_encodeEvex_imm {rm : EvexRM} {m : WriteMask} (h : rm.wf = true) (hm : m.wf = true) (vl : VL)
    (d : BitVec 5) (imm8 : BitVec 8) (rest : List Byte) :
    decode (encodeEvex 3#2 0x04#8 vl d 0#5 rm m ++ [imm8] ++ rest) = .instr (evexImmOf vl d rm m imm8) rest := by
  obtain ⟨raw, hraw, hmodrm⟩ := decodeModRM_evex h (d.extractLsb' 0 3) (imm8 :: rest)
  simp only [encodeEvex, List.append_assoc, List.cons_append, List.nil_append, decode_evexPrefix, decodeEvex,
    evexP0_fields, evexP1_fields, evexP2_fields, modRMByte_fields, opKind_imm, Bool.not_not,
    if_neg (m.wf_iff.mp hm), if_neg rm.not_broadcast_of_register, hmodrm, hraw, registerBits_append_field]
  simp

/-- R55 to R79: a well-formed instruction is read back from its encoding, whatever bytes follow it. -/
theorem decode_encode_append {i : Instr} (h : i.wf = true) (rest : List Byte) :
    decode (encode i ++ rest) = .instr i rest := by
  cases i with
  | vexVar128 | vexVar256 => exact decode_encodeVex_var h _ _ _ rest
  | vexImm128 | vexImm256 => exact decode_encodeVex_imm h _ _ _ rest
  | evexVar128 | evexVar256 | evexVar512 =>
    obtain ⟨hrm, hmask⟩ := Bool.and_eq_true_iff.mp h
    exact decode_encodeEvex_var hrm hmask _ _ _ rest
  | evexImm128 | evexImm256 | evexImm512 =>
    obtain ⟨hrm, hmask⟩ := Bool.and_eq_true_iff.mp h
    exact decode_encodeEvex_imm hrm hmask _ _ _ rest

/-- Every encoding has `len` bytes, at most 12 of them (R79). -/
theorem encodedLength (i : Instr) : Laws.EncodedLength.Statement i := by
  cases i with
  | vexVar128 => exact Laws.EncodedLength.vexVar128 ..
  | vexImm128 => exact Laws.EncodedLength.vexImm128 ..
  | vexVar256 => exact Laws.EncodedLength.vexVar256 ..
  | vexImm256 => exact Laws.EncodedLength.vexImm256 ..
  | evexVar128 => exact Laws.EncodedLength.evexVar128 ..
  | evexVar256 => exact Laws.EncodedLength.evexVar256 ..
  | evexVar512 => exact Laws.EncodedLength.evexVar512 ..
  | evexImm128 => exact Laws.EncodedLength.evexImm128 ..
  | evexImm256 => exact Laws.EncodedLength.evexImm256 ..
  | evexImm512 => exact Laws.EncodedLength.evexImm512 ..

theorem encode_length (i : Instr) : (encode i).length = instrLen i := (encodedLength i).1

end Sys2Proof

namespace Sys2Proof.Machine

/-- An encoding is never longer than the longest fetch (30_encoding.md R79; 20_memory.md R47). -/
theorem encode_length_le_fetchLimit (i : Instr) : (encode i).length ≤ fetchLimit := by
  obtain ⟨hlen, _, hmax⟩ := encodedLength i
  exact hlen.le.trans (hmax.trans (by decide))

/-- In 64-bit mode a step runs the instruction that the fetched bytes decode to (40_vpermilps_common.md R94). -/
theorem step_eq_exec_of_fetchDecode {s : State} {i : Instr} {rest : List Byte} (hmode : s.mode64 = true)
    (h : fetchDecode s = .instr i rest) : step s = exec i s := by
  simp [step, hmode, h]

/-- The fetch decodes the well-formed instruction whose encoding stands at `rip`. -/
theorem fetchDecode_of_codeAt {s : State} {i : Instr} (hwf : i.wf = true) (h : codeAt s s.rip.toNat (encode i)) :
    ∃ rest, fetchDecode s = .instr i rest := by
  rw [fetchDecode, fetchWindow_of_codeAt s _ _ _ h (encode_length_le_fetchLimit i)]
  exact ⟨_, decode_encode_append hwf _⟩

/-- Settles O7, by reading the encoding back from the fetch window. -/
theorem stepRunsEncodedInstruction : Obligations.StepRunsEncodedInstruction := by
  unfold Obligations.StepRunsEncodedInstruction
  intro s i hmode hwf hcode
  obtain ⟨_, hdecode⟩ := fetchDecode_of_codeAt hwf hcode
  exact step_eq_exec_of_fetchDecode hmode hdecode

end Sys2Proof.Machine

/-! The memory operand (20_memory.md R33 to R54). Its one idea: every form with a memory operand makes one and the
same read, `operandAt`, so what a form does is said by what that read does. The read in turn is refused, or it reads its
bytes from the lowest on and assembles them. -/

namespace Sys2Proof.Machine

open Host (Outcome)

/-! ### Memory is not written -/

/-- Settles O36: an instruction that completes writes `V[d]` and `rip` only. -/
theorem noStepWritesMemory : Obligations.NoStepWritesMemory := by
  unfold Obligations.NoStepWritesMemory
  intro s t h
  obtain ⟨_, i, _, _, hexec⟩ := step_next_cases h
  obtain ⟨_, _, x, rfl⟩ := exec_next_cases hexec
  simp

/-! ### Sequences and single reads -/

/-- A sequence faults in its first part, or in its second after the first. -/
theorem andThen_fault_iff {α β : Type} {o : Outcome α Fault Refusal} {k : α → Outcome β Fault Refusal}
    {f : Fault} : andThen o k = .fault f ↔ o = .fault f ∨ ∃ a, o = .next a ∧ k a = .fault f := by
  cases o <;> simp [andThen]

/-- A sequence is refused in its first part, or in its second after the first. -/
theorem andThen_refused_iff {α β : Type} {o : Outcome α Fault Refusal} {k : α → Outcome β Fault Refusal}
    {r : Refusal} : andThen o k = .refused r ↔ o = .refused r ∨ ∃ a, o = .next a ∧ k a = .refused r := by
  cases o <;> simp [andThen]

@[simp] theorem andThen_next_right {α : Type} (o : Outcome α Fault Refusal) : andThen o .next = o := by
  cases o <;> rfl

/-- A read of several bytes never ends in a refusal. -/
theorem readBytes_ne_refused (s : State) (acc : Access) (n a : Nat) (r : Refusal) :
    readBytes s acc n a ≠ .refused r := by
  induction n generalizing a with
  | zero => simp [readBytes]
  | succ n ih => simp [readBytes, andThen_refused_iff, byteAt_ne_refused, ih]

/-- Bytes that can each be read can be read together (R40). -/
theorem exists_readBytes {s : State} {acc : Access} {n a : Nat} (h : ∀ m < n, ∃ b, byteAt s acc (a + m) = .next b) :
    ∃ bs, readBytes s acc n a = .next bs := by
  choose! f hf using h
  refine ⟨(List.range n).map f, (readBytes_next_iff ..).mpr ⟨by simp, fun m hm => ?_⟩⟩
  simpa using hf m (by simpa using hm)

/-- The lowest byte that faults gives the fault of the read (R47). -/
theorem readBytes_eq_fault {s : State} {acc : Access} {n m a : Nat} {f : Fault} (hm : m < n)
    (hbelow : ∀ p < m, ∃ b, byteAt s acc (a + p) = .next b) (hfault : byteAt s acc (a + m) = .fault f) :
    readBytes s acc n a = .fault f := by
  induction m generalizing n a with
  | zero =>
    obtain ⟨n, rfl⟩ := Nat.exists_eq_add_one.mpr hm
    rw [readBytes, ← Nat.add_zero a, hfault, andThen_fault]
  | succ m ih =>
    obtain ⟨n, rfl⟩ := Nat.exists_eq_add_one.mpr (Nat.zero_lt_of_lt hm)
    obtain ⟨b, hb⟩ := hbelow 0 m.succ_pos
    have hrest : readBytes s acc n (a + 1) = .fault f := by
      refine ih (Nat.lt_of_succ_lt_succ hm) (fun p hp => ?_) ?_
      · rw [Nat.add_right_comm, Nat.add_assoc]
        exact hbelow (p + 1) (Nat.succ_lt_succ hp)
      · rw [Nat.add_right_comm, Nat.add_assoc]
        exact hfault
    rw [readBytes, ← Nat.add_zero a, hb, andThen_next, Nat.add_zero, hrest, andThen_fault]

/-! ### The read of an operand -/

/-- The situation of R42, from the conditions that make it. -/
theorem misaligned_iff (s : State) (ea : Word) (n : Nat) :
    (s.alignmentChecked && ea.toNat % n != 0) = true ↔
      s.am = true ∧ s.ac = true ∧ s.cpl = 3 ∧ ea.toNat % n ≠ 0 := by
  simp [State.alignmentChecked, and_assoc]

section OperandRead
variable {s : State} {ea : Word} {n : Nat}

/-- The refused situations of R42, R48 and R44, of which an admitted operand is in none. -/
theorem operandAdmitted_iff :
    operandAdmitted s ea n = true ↔
      ¬(s.am = true ∧ s.ac = true ∧ s.cpl = 3 ∧ ea.toNat % n ≠ 0) ∧ ¬2 ^ 64 ≤ ea.toNat + n - 1 ∧
        ¬touchesDevice s ea.toNat n = true := by
  rw [← misaligned_iff, operandAdmitted, Bool.and_eq_true, Bool.and_eq_true, Bool.not_eq_true', Bool.not_eq_true',
    decide_eq_true_iff, ← Bool.not_eq_true, ← Bool.not_eq_true, ← Nat.not_le, and_assoc]

theorem operandRead_eq_alignmentCheck (h : s.am = true ∧ s.ac = true ∧ s.cpl = 3 ∧ ea.toNat % n ≠ 0) :
    operandRead s ea n = .refused .alignmentCheck := if_pos ((misaligned_iff s ea n).mpr h)

theorem operandRead_eq_operandWrap (halign : ¬(s.am = true ∧ s.ac = true ∧ s.cpl = 3 ∧ ea.toNat % n ≠ 0))
    (hwrap : 2 ^ 64 ≤ ea.toNat + n - 1) : operandRead s ea n = .refused .operandWrap := by
  rw [← misaligned_iff] at halign
  rw [operandRead, if_neg halign, if_pos hwrap]

theorem operandRead_eq_deviceMemory (halign : ¬(s.am = true ∧ s.ac = true ∧ s.cpl = 3 ∧ ea.toNat % n ≠ 0))
    (hwrap : ¬2 ^ 64 ≤ ea.toNat + n - 1) (hdevice : touchesDevice s ea.toNat n = true) :
    operandRead s ea n = .refused .deviceMemory := by
  rw [← misaligned_iff] at halign
  rw [operandRead, if_neg halign, if_neg hwrap, if_pos hdevice]

/-- An admitted operand's bytes are read and assembled, whatever its alignment (R38, R41). -/
theorem operandRead_of_admitted (h : operandAdmitted s ea n = true) :
    operandRead s ea n = andThen (readBytes s .data n ea.toNat) fun bs => .next (leValue bs) := by
  obtain ⟨halign, hwrap, hdevice⟩ := operandAdmitted_iff.mp h
  rw [← misaligned_iff] at halign
  rw [operandRead, if_neg halign, if_neg hwrap, if_neg hdevice]

end OperandRead

/-! ### The memory operand of an instruction -/

/-- What an instruction makes of the bytes read: copies of the one element with `EVEX.b`, else their value (R36). -/
def operandValue (i : Instr) (x : Vec) : Vec := if bcstOf i then broadcast i.form.vl (dword x 0) else x

/-- The address, the factor and the size of an operand, by its parts. -/
theorem operandRange_eq_some_iff {s : State} {i : Instr} {ea : Word} {n : Nat} :
    operandRange s i = some (ea, n) ↔
      ∃ o, operandOf i = some o ∧ ea = effAddr s (BitVec.ofNat 64 o.factor) (instrLen i) o.addr ∧
        n = o.bytes := by
  unfold operandRange
  cases operandOf i <;> simp [eq_comm]

theorem operandInRange_of_operandOf {i : Instr} {o : MemOperand} (h : operandOf i = some o) (s : State) :
    operandInRange s i = addressInRange s o.factor (instrLen i) o.addr := by
  simp [operandInRange, h]

theorem fetchVexRM_eq_operandAt {vl : VL} {rm : VexRM} {o : MemOperand} (h : VexRM.operand vl rm = some o) (s : State)
    (len : Nat) : fetchVexRM s vl len rm = operandAt s o.factor len o.addr o.bytes := by
  cases rm with
  | reg => simp [VexRM.operand] at h
  | mem a =>
    cases h
    rfl

theorem fetchEvexRM_eq_operandAt {vl : VL} {rm : EvexRM} {o : MemOperand} (h : EvexRM.operand vl rm = some o)
    (s : State) (len : Nat) :
    fetchEvexRM s vl len rm =
      andThen (operandAt s o.factor len o.addr o.bytes) fun x =>
        .next (if rm.bcst then broadcast vl (dword x 0) else x) := by
  cases rm with
  | reg => simp [EvexRM.operand] at h
  | mem a bcst =>
    cases h
    rfl

/-- `FetchRM` of every form with a memory operand is the one read of that operand (R34, R35, R91). -/
theorem fetchOf_eq_operandAt {i : Instr} {o : MemOperand} (h : operandOf i = some o) (s : State) :
    fetchOf i s =
      andThen (operandAt s o.factor (instrLen i) o.addr o.bytes) fun x => .next (operandValue i x) := by
  cases i with
  | vexVar128 | vexImm128 | vexVar256 | vexImm256 =>
    exact (fetchVexRM_eq_operandAt h s _).trans (andThen_next_right _).symm
  | evexVar128 | evexVar256 | evexVar512 | evexImm128 | evexImm256 | evexImm512 =>
    exact fetchEvexRM_eq_operandAt h s _

/-- A memory operand whose sum stays below 2^64 is read at its effective address. -/
theorem fetchOf_eq_operandRead {i : Instr} {s : State} {ea : Word} {n : Nat} (h : operandRange s i = some (ea, n))
    (hin : operandInRange s i = true) :
    fetchOf i s = andThen (operandRead s ea n) fun x => .next (operandValue i x) := by
  obtain ⟨o, ho, rfl, rfl⟩ := operandRange_eq_some_iff.mp h
  rw [operandInRange_of_operandOf ho] at hin
  rw [fetchOf_eq_operandAt ho, operandAt, if_pos hin]

/-- A memory operand whose sum reaches 2^64 is refused (R48, D22). -/
theorem fetchOf_eq_addressWrap {i : Instr} {s : State} {ea : Word} {n : Nat} (h : operandRange s i = some (ea, n))
    (hout : operandInRange s i = false) : fetchOf i s = .refused .addressWrap := by
  obtain ⟨o, ho, rfl, rfl⟩ := operandRange_eq_some_iff.mp h
  rw [operandInRange_of_operandOf ho] at hout
  rw [fetchOf_eq_operandAt ho, operandAt, hout, if_neg Bool.false_ne_true, andThen_refused]

/-- An admitted operand's bytes are read, assembled and used. -/
theorem fetchOf_eq_readBytes {i : Instr} {s : State} {ea : Word} {n : Nat} (h : operandRange s i = some (ea, n))
    (hin : operandInRange s i = true) (hadm : operandAdmitted s ea n = true) :
    fetchOf i s = andThen (readBytes s .data n ea.toNat) fun bs => .next (operandValue i (leValue bs)) := by
  rw [fetchOf_eq_operandRead h hin, operandRead_of_admitted hadm]
  cases readBytes s .data n ea.toNat <;> rfl

/-- An admitted operand is never refused. -/
theorem fetchOf_ne_refused {i : Instr} {s : State} {ea : Word} {n : Nat} (h : operandRange s i = some (ea, n))
    (hin : operandInRange s i = true) (hadm : operandAdmitted s ea n = true) (r : Refusal) :
    fetchOf i s ≠ .refused r := by
  simp [fetchOf_eq_readBytes h hin hadm, andThen_refused_iff, readBytes_ne_refused]

/-! ### What the operand decides about the instruction -/

/-- Settles O23: the bytes can be read, so the operand is fetched and the form completes. -/
theorem memoryFormsComplete : Obligations.MemoryFormsComplete := by
  unfold Obligations.MemoryFormsComplete
  intro i s ea n hrange hen hrip hin hadm hbytes
  obtain ⟨bs, hbs⟩ := exists_readBytes hbytes
  have hfetch : fetchOf i s = .next (operandValue i (leValue bs)) := by
    rw [fetchOf_eq_readBytes hrange hin hadm, hbs, andThen_next]
  exact ⟨_, exec_next_iff.mpr ⟨hen, hrip, _, hfetch, rfl⟩, rfl⟩

/-- An instruction faults in its check, or, when enabled, in its operand (60_exceptions.md R129). -/
theorem exec_fault_iff {i : Instr} {s : State} {f : Fault} :
    exec i s = .fault f ↔ precheck i.form s = .fault f ∨ (enabled i.form s = true ∧ fetchOf i s = .fault f) := by
  simp only [exec_eq_sequence, andThen_fault_iff, complete_ne_fault, and_false, exists_false, or_false,
    ← precheck_next_iff]
  exact or_congr_right ⟨fun ⟨_, h⟩ => h, fun h => ⟨(), h⟩⟩

/-- Settles O51: the check passes, and the operand's read faults. -/
theorem lowestFaultingByteDecides : Obligations.LowestFaultingByteDecides := by
  unfold Obligations.LowestFaultingByteDecides
  intro i s ea n m f hrange hen hin hadm hm hbelow hfault
  refine exec_fault_iff.mpr (.inr ⟨hen, ?_⟩)
  rw [fetchOf_eq_readBytes hrange hin hadm, readBytes_eq_fault hm hbelow hfault, andThen_fault]

/-- Two instructions of one form with one operand fault alike, whatever masks they name and whatever the opmask
registers hold (R45, D17). -/
theorem exec_fault_of_sameOperand {i i' : Instr} {s : State} {k : Vector Word 8} {f : Fault}
    (h : exec i s = .fault f) (hform : i'.form = i.form) (hfetch : fetchOf i' s = fetchOf i s) :
    exec i' { s with k := k } = .fault f := by
  change exec i' (s.withMasksAndMxcsr k s.mxcsr) = .fault f
  rw [exec_fault_iff] at h ⊢
  rw [← precheck_next_iff] at h ⊢
  rwa [precheck_withMasksAndMxcsr, fetchOf_withMasksAndMxcsr, hform, hfetch]

/-- Settles O52: neither the form nor the operand depends on the masking fields. -/
theorem maskSuppressesNoFault : Obligations.MaskSuppressesNoFault := by
  unfold Obligations.MaskSuppressesNoFault
  intro d s1 a bcst m m' imm8 s k f
  refine ⟨?f5, ?f6, ?f7, ?f8, ?f9, ?f10⟩ <;> exact fun h => exec_fault_of_sameOperand h rfl rfl

/-- An enabled instruction whose operand is refused is refused. -/
theorem exec_eq_refused {i : Instr} {s : State} {r : Refusal} (hen : enabled i.form s = true)
    (hfetch : fetchOf i s = .refused r) : exec i s = .refused r := by
  rw [exec_eq_sequence, (precheck_next_iff _ _).mpr hen, hfetch, andThen_next, andThen_refused]

/-- Completing is refused only where `rip + len` reaches 2^64. -/
theorem eq_ripWrap_of_complete_refused {s : State} {d : BitVec 5} {x : Vec} {len : Nat} {r : Refusal}
    (h : complete s d x len = .refused r) : r = .ripWrap := by
  unfold complete at h
  split at h <;> simp_all

/-- An enabled instruction whose operand is not refused is refused only in completing. -/
theorem eq_ripWrap_of_exec_refused {i : Instr} {s : State} {r : Refusal} (hen : enabled i.form s = true)
    (hfetch : fetchOf i s ≠ .refused r) (h : exec i s = .refused r) : r = .ripWrap := by
  rw [exec_eq_sequence, (precheck_next_iff _ _).mpr hen, andThen_next, andThen_refused_iff] at h
  obtain hrefused | ⟨x, _, hcomplete⟩ := h
  · exact absurd hrefused hfetch
  · exact eq_ripWrap_of_complete_refused hcomplete

/-- Settles O53, refusal by refusal in the order in which the read asks for them. -/
theorem operandRefusals : Obligations.OperandRefusals := by
  unfold Obligations.OperandRefusals
  intro i s ea n hrange hen
  split_ifs with hout halign hwrap hdevice
  · exact exec_eq_refused hen (fetchOf_eq_addressWrap hrange hout)
  all_goals
    have hin : operandInRange s i = true := Bool.eq_true_of_not_eq_false hout
    have hread := fetchOf_eq_operandRead hrange hin
  · exact exec_eq_refused hen (by rw [hread, operandRead_eq_alignmentCheck halign, andThen_refused])
  · exact exec_eq_refused hen (by rw [hread, operandRead_eq_operandWrap halign hwrap, andThen_refused])
  · exact exec_eq_refused hen (by rw [hread, operandRead_eq_deviceMemory halign hwrap hdevice, andThen_refused])
  · intro r
    have hadm := operandAdmitted_iff.mpr ⟨halign, hwrap, hdevice⟩
    exact eq_ripWrap_of_exec_refused hen (fetchOf_ne_refused hrange hin hadm r)

end Sys2Proof.Machine

/-! The address and the value of the memory operand (30_encoding.md R72 to R76; 20_memory.md R35 to R41). Its one idea:
taking an integer modulo 2^64 respects sums and products, so the model's sum of words is the integer sum modulo 2^64,
part by part. The value read is said bit by bit. -/

namespace Sys2Proof.Machine

open Host (Outcome)

/-! ### The effective address -/

theorem dispValue_eq_ofInt (n : Nat) (disp : Disp) :
    dispValue (BitVec.ofNat 64 n) disp = BitVec.ofInt 64 (dispInt n disp) := by
  cases disp with
  | none => rfl
  | d8 b => rw [dispInt, BitVec.ofInt_mul, BitVec.ofInt_natCast]; rfl
  | d32 b => rfl

theorem ofInt_toNat {w : Nat} (x : BitVec w) : BitVec.ofInt w x.toNat = x := by
  rw [BitVec.ofInt_natCast, BitVec.ofNat_toNat, BitVec.setWidth_eq]

theorem indexValue_eq_ofInt (s : State) (scale : BitVec 2) (index : BitVec 4) :
    indexValue s scale index = BitVec.ofInt 64 (indexInt s scale index) := by
  unfold indexValue indexInt
  split
  · rfl
  · have hscale : BitVec.twoPow 64 scale.toNat = BitVec.ofNat 64 (2 ^ scale.toNat) :=
      BitVec.eq_of_toNat_eq (by rw [BitVec.toNat_twoPow, BitVec.toNat_ofNat])
    rw [BitVec.ofInt_mul, ofInt_toNat, BitVec.ofInt_natCast, BitVec.shiftLeft_eq_mul_twoPow, hscale]

/-- R73, R75: the effective address is the integer sum, taken modulo 2^64. -/
theorem effAddr_eq_ofInt (s : State) (n len : Nat) (a : Addr) :
    effAddr s (BitVec.ofNat 64 n) len a = BitVec.ofInt 64 (addrInt s n len a) := by
  cases a with
  | base | sib | sibNoBase | ripRel =>
    simp only [effAddr, addrInt, BitVec.ofInt_add, BitVec.ofInt_natCast, BitVec.ofNat_toNat,
      BitVec.setWidth_eq, dispValue_eq_ofInt, indexValue_eq_ofInt, BitVec.signExtend]

theorem toNat_effAddr (s : State) (n len : Nat) (a : Addr) :
    ((effAddr s (BitVec.ofNat 64 n) len a).toNat : Int) = addrInt s n len a % 2 ^ 64 := by
  rw [effAddr_eq_ofInt, BitVec.toNat_ofInt]
  omega

/-! ### The size of the operand -/

/-- R35, R76: a VEX form reads `VL/8` bytes and does not scale its displacement byte. -/
theorem VexRM.operand_size {vl : VL} {rm : VexRM} {o : MemOperand} (h : VexRM.operand vl rm = some o) :
    o.factor = 1 ∧ 8 * o.bytes = vl.bits := by
  cases rm with
  | reg => simp [VexRM.operand] at h
  | mem a =>
    cases h
    exact ⟨rfl, by cases vl <;> rfl⟩

/-- R35, R76: an EVEX form reads 4 bytes with `EVEX.b`, else `VL/8`, and scales its displacement byte by that
number. -/
theorem EvexRM.operand_size {vl : VL} {rm : EvexRM} {o : MemOperand} (h : EvexRM.operand vl rm = some o) :
    o.factor = o.bytes ∧ (rm.bcst = true → o.bytes = 4) ∧ (rm.bcst = false → 8 * o.bytes = vl.bits) := by
  cases rm with
  | reg => simp [EvexRM.operand] at h
  | mem a bcst =>
    cases h
    refine ⟨rfl, ?_, ?_⟩
    · rintro rfl; rfl
    · rintro rfl; cases vl <;> rfl

theorem operand_size_of_vex {i : Instr} {o : MemOperand} (h : operandOf i = some o) (hvex : i.form.isEvex = false) :
    o.factor = 1 ∧ 8 * o.bytes = i.form.vl.bits := by
  cases i with
  | vexVar128 | vexImm128 | vexVar256 | vexImm256 => exact VexRM.operand_size h
  | evexVar128 | evexVar256 | evexVar512 | evexImm128 | evexImm256 | evexImm512 =>
    simp [Instr.form, Form.isEvex] at hvex

theorem operand_size_of_evex {i : Instr} {o : MemOperand} (h : operandOf i = some o) (hevex : i.form.isEvex = true) :
    o.factor = o.bytes ∧ (bcstOf i = true → o.bytes = 4) ∧
      (bcstOf i = false → 8 * o.bytes = i.form.vl.bits) := by
  cases i with
  | vexVar128 | vexImm128 | vexVar256 | vexImm256 => simp [Instr.form, Form.isEvex] at hevex
  | evexVar128 | evexVar256 | evexVar512 | evexImm128 | evexImm256 | evexImm512 => exact EvexRM.operand_size h

/-- Settles O48: the address part by part, the sizes for the VEX and the EVEX forms. -/
theorem effectiveAddressIsTheSum : Obligations.EffectiveAddressIsTheSum := by
  unfold Obligations.EffectiveAddressIsTheSum
  refine ⟨toNat_effAddr, fun s i o ho => ⟨?_, operand_size_of_vex ho, operand_size_of_evex ho⟩⟩
  rw [encode_length]
  exact ⟨_, operandRange_eq_some_iff.mpr ⟨o, ho, rfl, rfl⟩, toNat_effAddr ..⟩

/-! ### The value read -/

/-- R38: bit `j` of the value is bit `j mod 8` of the byte `j / 8`. -/
theorem getLsbD_leValue (bs : List Byte) (j : Nat) :
    (leValue bs).getLsbD j = (decide (j < 512) && (bs.getD (j / 8) 0).getLsbD (j % 8)) := by
  induction bs generalizing j with
  | nil => simp [leValue]
  | cons b bs ih =>
    simp only [leValue, BitVec.getLsbD_or, BitVec.getLsbD_shiftLeft, BitVec.getLsbD_setWidth, ih]
    by_cases hj : j < 8
    · have hdiv : j / 8 = 0 := by omega
      have hmod : j % 8 = j := by omega
      simp [hj, hdiv, hmod]
    · obtain ⟨k, rfl⟩ : ∃ k, j = k + 8 := ⟨j - 8, by omega⟩
      have hdiv : (k + 8) / 8 = k / 8 + 1 := by omega
      by_cases hk : k + 8 < 512
      · have hlt : k < 512 := by omega
        simp [hdiv, hk, hlt]
      · simp [hk]

/-- Up to 64 bytes fit a vector, so the value holds each of them and zeros above (R38, R91). -/
theorem holdsBytes_leValue {bs : List Byte} (h : bs.length ≤ 64) : holdsBytes (leValue bs) bs := by
  constructor
  · refine Nat.lt_pow_two_of_testBit _ fun j hj => ?_
    have hnone : bs.length ≤ j / 8 := by omega
    rw [BitVec.testBit_toNat, getLsbD_leValue, List.getD_eq_default _ _ hnone]
    simp
  · intro m hm
    apply BitVec.eq_of_getLsbD_eq
    intro j hj
    have hbit : 8 * m + j < 512 := by omega
    have hdiv : (8 * m + j) / 8 = m := by omega
    have hmod : (8 * m + j) % 8 = j := by omega
    rw [BitVec.getLsbD_extractLsb', getLsbD_leValue, hdiv, hmod, List.getD_eq_getElem _ _ hm]
    simp [hj, hbit]

/-- Bytes that stand at an admitted operand are what its read answers (R38, R40, R41). -/
theorem operandRead_of_dataBytes {s : State} {ea : Word} {bs : List Byte}
    (hadm : operandAdmitted s ea bs.length = true) (hbytes : dataBytes s ea.toNat bs) :
    operandRead s ea bs.length = .next (leValue bs) := by
  rw [operandRead_of_admitted hadm, (dataBytes_iff ..).mp hbytes, andThen_next]

/-- The same at an effective address, with the factor and the length of the instruction (R75, R91). -/
theorem operandAt_of_operandStands {s : State} {factor len : Nat} {a : Addr} {bs : List Byte}
    (h : operandStands s (addrInt s factor len a) bs) : operandAt s factor len a bs.length = .next (leValue bs) := by
  obtain ⟨hsum, hadm, hbytes⟩ := h
  rw [← effAddr_eq_ofInt] at hadm hbytes
  rw [operandAt, if_pos (show addressInRange s factor len a = true from decide_eq_true hsum),
    operandRead_of_dataBytes hadm hbytes]

/-- The vector lengths with the bytes of a full operand (R35). -/
theorem bytes_of_mem {vl : VL} {n : Nat} (h : (vl, n) ∈ [(VL.v128, 16), (.v256, 32), (.v512, 64)]) :
    vl.bytes = n ∧ n ≤ 64 := by
  simp only [List.mem_cons, Prod.mk.injEq, List.not_mem_nil, or_false] at h
  obtain ⟨rfl, rfl⟩ | ⟨rfl, rfl⟩ | ⟨rfl, rfl⟩ := h <;> decide

/-- Settles O49: each of the three reads answers the value of the bytes that stand there. -/
theorem operandReadIsLittleEndian : Obligations.OperandReadIsLittleEndian := by
  unfold Obligations.OperandReadIsLittleEndian
  intro s bs
  refine ⟨fun ea hlen hadm hbytes => ?_, fun vl len a hlen hstands => ?_, fun vl len a hlen hstands => ?_⟩
  · have hle : bs.length ≤ 64 := by
      simp only [List.mem_cons, List.not_mem_nil, or_false] at hlen
      omega
    exact ⟨_, operandRead_of_dataBytes hadm hbytes, holdsBytes_leValue hle⟩
  · obtain ⟨hvl, hle⟩ := bytes_of_mem (List.mem_append_left [(VL.v512, 64)] hlen)
    exact ⟨_, by rw [fetchVexRM, hvl, operandAt_of_operandStands hstands], holdsBytes_leValue hle⟩
  · obtain ⟨hvl, hle⟩ := bytes_of_mem hlen
    refine ⟨_, ?_, holdsBytes_leValue hle⟩
    simp [fetchEvexRM, evexBytes, hvl, operandAt_of_operandStands hstands]

/-- The lowest element of a value is its four lowest bytes (R36, R38). -/
theorem dword_leValue_zero (b0 b1 b2 b3 : Byte) : dword (leValue [b0, b1, b2, b3]) 0 = le32 b0 b1 b2 b3 := by
  obtain ⟨_, hbyte⟩ := holdsBytes_leValue (bs := [b0, b1, b2, b3]) (by simp)
  rw [dword, ← le32_extractLsb']
  exact congr (congr (congr (congrArg le32 (hbyte 0 (by simp))) (hbyte 1 (by simp))) (hbyte 2 (by simp)))
    (hbyte 3 (by simp))

theorem hasElements_broadcast (vl : VL) (e : Dword) : hasElements (broadcast vl e) vl.kl fun _ => e :=
  fun j hj => dword_ofDwords _ _ j hj

/-- Settles O50: four bytes are read, and their value is the element that is copied. -/
theorem broadcastCopiesFourBytes : Obligations.BroadcastCopiesFourBytes := by
  unfold Obligations.BroadcastCopiesFourBytes
  intro s vl len a b0 b1 b2 b3 hstands
  have hread : operandAt s 4 len a 4 = .next (leValue [b0, b1, b2, b3]) := operandAt_of_operandStands hstands
  refine ⟨broadcast vl (le32 b0 b1 b2 b3), ?_, hasElements_broadcast vl _⟩
  simp [fetchEvexRM, evexBytes, hread, dword_leValue_zero]

end Sys2Proof.Machine

/-! What the decoder answers (30_encoding.md R79, R80). Its one idea: the decoder takes one byte after another, and each
byte either settles the answer or is kept. So the facts about its whole range (it reads no further than its answer
needs, what it answers is well-formed and has its length, 12 bytes are enough) are carried along byte by byte, as the
one property `ReadsItsBytes`. -/

namespace Sys2Proof

/-! ### Displacement and addressing form -/

theorem bytes_d32_le32 (b0 b1 b2 b3 : Byte) : (Disp.d32 (le32 b0 b1 b2 b3)).bytes = [b0, b1, b2, b3] := by
  simp only [Disp.bytes, List.cons.injEq, and_true]
  grind [le32]

/-- Four displacement bytes are read whenever they are there (R75). -/
theorem takeDisp32_eq_some_iff {mk : BitVec 32 → Addr} {bs rest : List Byte} {a : Addr} :
    takeDisp32 mk bs = some (a, rest) ↔ ∃ d, a = mk d ∧ bs = (Disp.d32 d).bytes ++ rest := by
  constructor
  · intro h
    unfold takeDisp32 at h
    split at h
    · rename_i b0 b1 b2 b3 _
      cases h
      exact ⟨_, rfl, by rw [bytes_d32_le32]; rfl⟩
    · cases h
  · rintro ⟨d, rfl, rfl⟩
    exact takeDisp32_bytes mk d rest

theorem length_lt_of_takeDisp32_eq_none {mk : BitVec 32 → Addr} {bs : List Byte} (h : takeDisp32 mk bs = none) :
    bs.length < 4 := by
  unfold takeDisp32 at h
  split at h
  · cases h
  · rename_i hshort
    match bs, hshort with
    | [], _ | [_], _ | [_, _], _ | [_, _, _], _ => simp
    | b0 :: b1 :: b2 :: b3 :: rest, hshort => exact absurd rfl (hshort b0 b1 b2 b3 rest)

/-- With `mod` = 10b the displacement has four bytes (R75). -/
theorem takeDisp_two (mk : Disp → Addr) (bs : List Byte) : takeDisp 2#2 mk bs = takeDisp32 (mk ∘ .d32) bs := rfl

theorem mod_cases : ∀ {mod : BitVec 2}, mod ≠ 3#2 → mod = 0#2 ∨ mod = 1#2 ∨ mod = 2#2 := by decide

/-- The displacement read is the one whose bytes stand there, of the kind that `mod` asks for (R75). -/
theorem takeDisp_eq_some_iff {mod : BitVec 2} (hmod : mod ≠ 3#2) {mk : Disp → Addr} {bs rest : List Byte}
    {a : Addr} :
    takeDisp mod mk bs = some (a, rest) ↔
      ∃ disp : Disp, disp.mod = mod ∧ a = mk disp ∧ bs = disp.bytes ++ rest := by
  constructor
  · intro h
    obtain rfl | rfl | rfl := mod_cases hmod
    · cases h
      exact ⟨.none, rfl, rfl, rfl⟩
    · cases bs with
      | nil => cases h
      | cons b rest =>
        cases h
        exact ⟨.d8 b, rfl, rfl, rfl⟩
    · rw [takeDisp_two, takeDisp32_eq_some_iff] at h
      obtain ⟨d, rfl, rfl⟩ := h
      exact ⟨.d32 d, rfl, rfl, rfl⟩
  · rintro ⟨disp, rfl, rfl, rfl⟩
    exact takeDisp_bytes mk disp rest

theorem length_lt_of_takeDisp_eq_none {mod : BitVec 2} (hmod : mod ≠ 3#2) {mk : Disp → Addr} {bs : List Byte}
    (h : takeDisp mod mk bs = none) : bs.length < 4 := by
  obtain rfl | rfl | rfl := mod_cases hmod
  · cases h
  · cases bs with
    | nil => simp
    | cons => cases h
  · exact length_lt_of_takeDisp32_eq_none (takeDisp_two mk bs ▸ h)

/-- The low three bits of a register number are its field (R69). -/
theorem extractLsb'_register (b : Bool) (field : BitVec 3) : (BitVec.ofBool b ++ field).extractLsb' 0 3 = field :=
  BitVec.extractLsb'_append_eq_right

/-! `decodeAddr` by the addressing form that `mod`, `rm` and the SIB byte's `base` ask for (R72 to R74). -/

section DecodeAddr
variable {x b : Bool} {mod : BitVec 2} {rm : BitVec 3} {bs : List Byte}

theorem decodeAddr_sibNoBase {sib : Byte} (hbase : sib.extractLsb' 0 3 = 5#3) :
    decodeAddr x b 0#2 4#3 (sib :: bs) =
      takeDisp32 (.sibNoBase (sib.extractLsb' 6 2) (BitVec.ofBool x ++ sib.extractLsb' 3 3)) bs := by
  simp [decodeAddr, hbase]

theorem decodeAddr_sib {sib : Byte} (h : ¬(mod = 0#2 ∧ sib.extractLsb' 0 3 = 5#3)) :
    decodeAddr x b mod 4#3 (sib :: bs) =
      takeDisp mod (.sib (sib.extractLsb' 6 2) (BitVec.ofBool x ++ sib.extractLsb' 3 3)
        (BitVec.ofBool b ++ sib.extractLsb' 0 3)) bs := by
  simp only [decodeAddr, if_true, if_neg h]

theorem decodeAddr_ripRel : decodeAddr x b 0#2 5#3 bs = takeDisp32 .ripRel bs := rfl

theorem decodeAddr_base (hsib : rm ≠ 4#3) (h : ¬(mod = 0#2 ∧ rm = 5#3)) :
    decodeAddr x b mod rm bs = takeDisp mod (.base (BitVec.ofBool b ++ rm)) bs := by
  simp only [decodeAddr, if_neg hsib, if_neg h]

/-- What is read as an addressing form is well-formed, has its length, and is read again whatever follows it. -/
theorem decodeAddr_eq_some (hmod : mod ≠ 3#2) {a : Addr} {rest : List Byte}
    (h : decodeAddr x b mod rm bs = some (a, rest)) :
    a.wf = true ∧ ∃ tail, tail.length = a.tailLen ∧ bs = tail ++ rest ∧
      ∀ more, decodeAddr x b mod rm (tail ++ more) = some (a, more) := by
  by_cases hrm : rm = 4#3
  · subst hrm
    cases bs with
    | nil => cases h
    | cons sib bs =>
      by_cases hbase : mod = 0#2 ∧ sib.extractLsb' 0 3 = 5#3
      · obtain ⟨rfl, hbase⟩ := hbase
        rw [decodeAddr_sibNoBase hbase, takeDisp32_eq_some_iff] at h
        obtain ⟨d, rfl, rfl⟩ := h
        refine ⟨rfl, sib :: (Disp.d32 d).bytes, rfl, rfl, fun more => ?_⟩
        rw [List.cons_append, decodeAddr_sibNoBase hbase, takeDisp32_bytes]
      · rw [decodeAddr_sib hbase, takeDisp_eq_some_iff hmod] at h
        obtain ⟨disp, rfl, rfl, rfl⟩ := h
        refine ⟨Addr.wf_sib_iff.mpr ?_, sib :: disp.bytes, Nat.add_comm .., rfl, fun more => ?_⟩
        · rwa [extractLsb'_register]
        · rw [List.cons_append, decodeAddr_sib hbase, takeDisp_bytes]
  · by_cases hrip : mod = 0#2 ∧ rm = 5#3
    · obtain ⟨rfl, rfl⟩ := hrip
      rw [decodeAddr_ripRel, takeDisp32_eq_some_iff] at h
      obtain ⟨d, rfl, rfl⟩ := h
      exact ⟨rfl, _, rfl, rfl, takeDisp32_bytes _ d⟩
    · rw [decodeAddr_base hrm hrip, takeDisp_eq_some_iff hmod] at h
      obtain ⟨disp, rfl, rfl, rfl⟩ := h
      refine ⟨Addr.wf_base_iff.mpr ?_, disp.bytes, rfl, rfl, fun more => ?_⟩
      · rw [extractLsb'_register]
        exact ⟨hrm, hrip⟩
      · rw [decodeAddr_base hrm hrip, takeDisp_bytes]

/-- Five bytes are enough for any addressing form: a SIB byte and four displacement bytes. -/
theorem length_lt_of_decodeAddr_eq_none (hmod : mod ≠ 3#2) (h : decodeAddr x b mod rm bs = none) : bs.length < 5 := by
  by_cases hrm : rm = 4#3
  · subst hrm
    cases bs with
    | nil => simp
    | cons sib bs =>
      refine Nat.succ_lt_succ ?_
      by_cases hbase : mod = 0#2 ∧ sib.extractLsb' 0 3 = 5#3
      · obtain ⟨rfl, hbase⟩ := hbase
        exact length_lt_of_takeDisp32_eq_none (decodeAddr_sibNoBase hbase ▸ h)
      · exact length_lt_of_takeDisp_eq_none hmod (decodeAddr_sib hbase ▸ h)
  · refine Nat.lt_succ_of_lt ?_
    by_cases hrip : mod = 0#2 ∧ rm = 5#3
    · obtain ⟨rfl, rfl⟩ := hrip
      exact length_lt_of_takeDisp32_eq_none h
    · exact length_lt_of_takeDisp_eq_none hmod (decodeAddr_base hrm hrip ▸ h)

end DecodeAddr

/-! ### The `r/m` operand -/

/-- Whether an `r/m` operand, of a VEX or an EVEX form alike, can be spelt. -/
def RawRM.wf : RawRM → Bool
  | .reg _ => true
  | .mem a => a.wf

/-- SIB and displacement bytes of an `r/m` operand, of a VEX or an EVEX form alike (R79). -/
def RawRM.tailLen : RawRM → Nat
  | .reg _ => 0
  | .mem a => a.tailLen

@[simp] theorem RawRM.wf_toVex (b : Bool) (raw : RawRM) : (raw.toVex b).wf = raw.wf := by cases raw <;> rfl
@[simp] theorem RawRM.wf_toEvex (x b bcst : Bool) (raw : RawRM) : (raw.toEvex x b bcst).wf = raw.wf := by
  cases raw <;> rfl
@[simp] theorem RawRM.tailLen_toVex (b : Bool) (raw : RawRM) : (raw.toVex b).tailLen = raw.tailLen := by
  cases raw <;> rfl
@[simp] theorem RawRM.tailLen_toEvex (x b bcst : Bool) (raw : RawRM) :
    (raw.toEvex x b bcst).tailLen = raw.tailLen := by cases raw <;> rfl

theorem RawRM.tailLen_le (raw : RawRM) : raw.tailLen ≤ 5 := by
  cases raw with
  | reg => exact Nat.zero_le 5
  | mem a => exact a.tailLen_le

section DecodeModRM
variable {x b : Bool} {modrm : Byte} {bs : List Byte}

theorem decodeModRM_of_mod_eq_three (h : modrm.extractLsb' 6 2 = 3#2) :
    decodeModRM x b (modrm :: bs) = some (modrm.extractLsb' 3 3, .reg (modrm.extractLsb' 0 3), bs) := by
  simp only [decodeModRM, if_pos h]

theorem decodeModRM_of_mod_ne_three (h : modrm.extractLsb' 6 2 ≠ 3#2) :
    decodeModRM x b (modrm :: bs) =
      (decodeAddr x b (modrm.extractLsb' 6 2) (modrm.extractLsb' 0 3) bs).map
        fun r => (modrm.extractLsb' 3 3, .mem r.1, r.2) := by
  simp only [decodeModRM, if_neg h]

/-- What is read after ModRM is well-formed, has its length, and is read again whatever follows it. -/
theorem decodeModRM_eq_some {reg : BitVec 3} {raw : RawRM} {rest : List Byte}
    (h : decodeModRM x b (modrm :: bs) = some (reg, raw, rest)) :
    raw.wf = true ∧ ∃ tail, tail.length = raw.tailLen ∧ bs = tail ++ rest ∧
      ∀ more, decodeModRM x b (modrm :: (tail ++ more)) = some (reg, raw, more) := by
  by_cases hmod : modrm.extractLsb' 6 2 = 3#2
  · rw [decodeModRM_of_mod_eq_three hmod] at h
    cases h
    exact ⟨rfl, [], rfl, rfl, fun _ => decodeModRM_of_mod_eq_three hmod⟩
  · rw [decodeModRM_of_mod_ne_three hmod, Option.map_eq_some_iff] at h
    obtain ⟨⟨a, rest'⟩, haddr, heq⟩ := h
    cases heq
    obtain ⟨hwf, tail, hlen, hbs, hagain⟩ := decodeAddr_eq_some hmod haddr
    refine ⟨hwf, tail, hlen, hbs, fun more => ?_⟩
    rw [decodeModRM_of_mod_ne_three hmod, hagain, Option.map_some]

theorem length_lt_of_decodeModRM_eq_none (h : decodeModRM x b (modrm :: bs) = none) : bs.length < 5 := by
  by_cases hmod : modrm.extractLsb' 6 2 = 3#2
  · rw [decodeModRM_of_mod_eq_three hmod] at h
    cases h
  · rw [decodeModRM_of_mod_ne_three hmod, Option.map_eq_none_iff] at h
    exact length_lt_of_decodeAddr_eq_none hmod h

end DecodeModRM

/-! ### What a decoder keeps of the bytes it is given -/

/-- The answer with more bytes behind those left over. -/
def Decoded.append : Decoded → List Byte → Decoded
  | .instr i rest, behind => .instr i (rest ++ behind)
  | .ud, _ => .ud
  | .legacyPrefix, _ => .legacyPrefix
  | .notThis, _ => .notThis
  | .more, _ => .more

/-- What holds of `f`, what the decoder does with the bytes after the first `p`: more bytes change no answer, an
instruction answered is well-formed and has its length, and the answer is there when 12 bytes are (R79, R80). -/
structure ReadsItsBytes (f : List Byte → Decoded) (p : Nat) : Prop where
  append : ∀ {bs} more, f bs ≠ .more → f (bs ++ more) = (f bs).append more
  instr : ∀ {bs i rest}, f bs = .instr i rest →
    i.wf = true ∧ ∃ used, bs = used ++ rest ∧ p + used.length = instrLen i
  length_lt : ∀ {bs}, f bs = .more → p + bs.length < maxInstrLen

/-- An answer that is settled. -/
theorem ReadsItsBytes.of_const {f : List Byte → Decoded} {d : Decoded} {p : Nat} (h : ∀ bs, f bs = d)
    (hinstr : ∀ i rest, d ≠ .instr i rest) (hmore : d ≠ .more) : ReadsItsBytes f p where
  append more _ := by
    rw [h, h]
    cases d with
    | instr i rest => exact absurd rfl (hinstr i rest)
    | ud | legacyPrefix | notThis | more => rfl
  instr {bs i rest} hf := absurd (h bs ▸ hf) (hinstr i rest)
  length_lt {bs} hf := absurd (h bs ▸ hf) hmore

theorem ReadsItsBytes.ud {f : List Byte → Decoded} {p : Nat} (h : ∀ bs, f bs = .ud) : ReadsItsBytes f p :=
  .of_const h (fun _ _ => nofun) nofun

theorem ReadsItsBytes.legacyPrefix {f : List Byte → Decoded} {p : Nat} (h : ∀ bs, f bs = .legacyPrefix) :
    ReadsItsBytes f p := .of_const h (fun _ _ => nofun) nofun

theorem ReadsItsBytes.notThis {f : List Byte → Decoded} {p : Nat} (h : ∀ bs, f bs = .notThis) : ReadsItsBytes f p :=
  .of_const h (fun _ _ => nofun) nofun

/-- One byte is asked for and taken. -/
theorem ReadsItsBytes.of_cons {f : List Byte → Decoded} {p : Nat} (hnil : f [] = .more) (hp : p < maxInstrLen)
    (hcons : ∀ b, ReadsItsBytes (fun bs => f (b :: bs)) (p + 1)) : ReadsItsBytes f p where
  append {bs} more h := by
    cases bs with
    | nil => exact absurd hnil h
    | cons b bs => exact (hcons b).append more h
  instr {bs i rest} h := by
    cases bs with
    | nil =>
      rw [hnil] at h
      cases h
    | cons b bs =>
      obtain ⟨hwf, used, rfl, hlen⟩ := (hcons b).instr h
      exact ⟨hwf, b :: used, rfl, by rw [List.length_cons]; omega⟩
  length_lt {bs} h := by
    cases bs with
    | nil => exact hp
    | cons b bs =>
      have := (hcons b).length_lt h
      rw [List.length_cons]
      omega

/-! ### ModRM and what follows it -/

/-- What both decoders do from ModRM on: the `r/m` operand, then `imm8` in an immediate form, make the instruction
(R68, R77). -/
def decodeOperands (kind : OpKind) (mk : Option Byte → BitVec 3 → RawRM → Instr) (x b : Bool) (bs : List Byte) :
    Decoded :=
  match decodeModRM x b bs with
  | none => .more
  | some (reg, raw, rest) =>
    match kind, rest with
    | .var, rest => .instr (mk none reg raw) rest
    | .imm, i :: rest => .instr (mk (some i) reg raw) rest
    | .imm, [] => .more

/-- From ModRM on nothing is reserved any more. -/
theorem decodeOperands_cases (kind : OpKind) (mk : Option Byte → BitVec 3 → RawRM → Instr) (x b : Bool)
    (bs : List Byte) :
    decodeOperands kind mk x b bs = .more ∨ ∃ i rest, decodeOperands kind mk x b bs = .instr i rest := by
  unfold decodeOperands
  split
  · exact .inl rfl
  · split
    · exact .inr ⟨_, _, rfl⟩
    · exact .inr ⟨_, _, rfl⟩
    · exact .inl rfl

section DecodeOperands
variable {kind : OpKind} {mk : Option Byte → BitVec 3 → RawRM → Instr} {x b : Bool} {bs : List Byte}

theorem decodeOperands_of_none (h : decodeModRM x b bs = none) : decodeOperands kind mk x b bs = .more := by
  simp [decodeOperands, h]

theorem decodeOperands_var {reg : BitVec 3} {raw : RawRM} {rest : List Byte}
    (h : decodeModRM x b bs = some (reg, raw, rest)) :
    decodeOperands .var mk x b bs = .instr (mk none reg raw) rest := by
  simp [decodeOperands, h]

theorem decodeOperands_imm {reg : BitVec 3} {raw : RawRM} {i : Byte} {rest : List Byte}
    (h : decodeModRM x b bs = some (reg, raw, i :: rest)) :
    decodeOperands .imm mk x b bs = .instr (mk (some i) reg raw) rest := by
  simp [decodeOperands, h]

theorem decodeOperands_imm_nil {reg : BitVec 3} {raw : RawRM} (h : decodeModRM x b bs = some (reg, raw, [])) :
    decodeOperands .imm mk x b bs = .more := by
  simp [decodeOperands, h]

/-- An instruction answered: the bytes read are those after ModRM and `imm8`, and they are read again. -/
theorem decodeOperands_eq_instr {modrm : Byte} {i : Instr} {rest : List Byte}
    (h : decodeOperands kind mk x b (modrm :: bs) = .instr i rest) :
    ∃ imm reg raw used, raw.wf = true ∧ i = mk imm reg raw ∧ bs = used ++ rest ∧
      used.length = raw.tailLen + imm.isSome.toNat ∧
      ∀ more, decodeOperands kind mk x b (modrm :: (used ++ more)) = .instr i more := by
  cases hmodrm : decodeModRM x b (modrm :: bs) with
  | none =>
    rw [decodeOperands_of_none hmodrm] at h
    cases h
  | some r =>
    obtain ⟨reg, raw, left⟩ := r
    obtain ⟨hwf, tail, hlen, rfl, hagain⟩ := decodeModRM_eq_some hmodrm
    cases kind with
    | var =>
      rw [decodeOperands_var hmodrm] at h
      cases h
      exact ⟨none, reg, raw, tail, hwf, rfl, rfl, hlen, fun more => decodeOperands_var (hagain more)⟩
    | imm =>
      cases left with
      | nil =>
        rw [decodeOperands_imm_nil hmodrm] at h
        cases h
      | cons imm8 left =>
        rw [decodeOperands_imm hmodrm] at h
        cases h
        refine ⟨some imm8, reg, raw, tail ++ [imm8], hwf, rfl, by simp, by simp [hlen], fun more => ?_⟩
        rw [List.append_assoc]
        exact decodeOperands_imm (hagain _)

/-- After ModRM six bytes are enough: five for the longest addressing form and `imm8`. -/
theorem length_lt_of_decodeOperands_eq_more {modrm : Byte}
    (h : decodeOperands kind mk x b (modrm :: bs) = .more) : bs.length < 6 := by
  cases hmodrm : decodeModRM x b (modrm :: bs) with
  | none => exact Nat.lt_succ_of_lt (length_lt_of_decodeModRM_eq_none hmodrm)
  | some r =>
    obtain ⟨reg, raw, left⟩ := r
    obtain ⟨_, tail, hlen, rfl, _⟩ := decodeModRM_eq_some hmodrm
    cases kind with
    | var =>
      rw [decodeOperands_var hmodrm] at h
      cases h
    | imm =>
      cases left with
      | nil =>
        rw [List.append_nil, hlen]
        exact Nat.lt_succ_of_le raw.tailLen_le
      | cons imm8 left =>
        rw [decodeOperands_imm hmodrm] at h
        cases h

/-- The bytes after ModRM are read as `ReadsItsBytes` says, if what is made of them is well-formed and as long as the
bytes read (R79). -/
theorem decodeOperands_readsItsBytes {p : Nat} (hp : p ≤ 6)
    (hwf : ∀ imm reg raw, raw.wf = true → (mk imm reg raw).wf = true)
    (hlen : ∀ imm reg raw, instrLen (mk imm reg raw) = p + raw.tailLen + imm.isSome.toNat) (modrm : Byte) :
    ReadsItsBytes (fun bs => decodeOperands kind mk x b (modrm :: bs)) p where
  append {bs} more h := by
    obtain hmore | ⟨i, rest, hd⟩ := decodeOperands_cases kind mk x b (modrm :: bs)
    · exact absurd hmore h
    · obtain ⟨_, _, _, used, _, _, rfl, _, hagain⟩ := decodeOperands_eq_instr hd
      rw [hd, List.append_assoc]
      exact hagain _
  instr {bs i rest} h := by
    obtain ⟨imm, reg, raw, used, hraw, rfl, rfl, hused, _⟩ := decodeOperands_eq_instr h
    exact ⟨hwf imm reg raw hraw, used, rfl, by rw [hlen, hused, Nat.add_assoc]⟩
  length_lt {bs} h := by
    have := length_lt_of_decodeOperands_eq_more h
    simp only [maxInstrLen]
    omega

end DecodeOperands

/-! ### The instruction that the fields and the operands make -/

@[simp] theorem wf_vexVarOf (long : Bool) (d s1 : BitVec 4) (rm : VexRM) : (vexVarOf long d s1 rm).wf = rm.wf := by
  cases long <;> rfl
@[simp] theorem wf_vexImmOf (long : Bool) (d : BitVec 4) (rm : VexRM) (i : Byte) :
    (vexImmOf long d rm i).wf = rm.wf := by cases long <;> rfl
@[simp] theorem wf_evexVarOf (vl : VL) (d s1 : BitVec 5) (rm : EvexRM) (m : WriteMask) :
    (evexVarOf vl d s1 rm m).wf = (rm.wf && m.wf) := by cases vl <;> rfl
@[simp] theorem wf_evexImmOf (vl : VL) (d : BitVec 5) (rm : EvexRM) (m : WriteMask) (i : Byte) :
    (evexImmOf vl d rm m i).wf = (rm.wf && m.wf) := by cases vl <;> rfl
@[simp] theorem instrLen_vexVarOf (long : Bool) (d s1 : BitVec 4) (rm : VexRM) :
    instrLen (vexVarOf long d s1 rm) = vexLen rm false := by cases long <;> rfl
@[simp] theorem instrLen_vexImmOf (long : Bool) (d : BitVec 4) (rm : VexRM) (i : Byte) :
    instrLen (vexImmOf long d rm i) = vexLen rm true := by cases long <;> rfl
@[simp] theorem instrLen_evexVarOf (vl : VL) (d s1 : BitVec 5) (rm : EvexRM) (m : WriteMask) :
    instrLen (evexVarOf vl d s1 rm m) = evexLen rm false := by cases vl <;> rfl
@[simp] theorem instrLen_evexImmOf (vl : VL) (d : BitVec 5) (rm : EvexRM) (m : WriteMask) (i : Byte) :
    instrLen (evexImmOf vl d rm m i) = evexLen rm true := by cases vl <;> rfl

/-! ### The VEX decoder, case by case -/

/-- The opcode that the VEX bytes and the opcode byte select, with `pp` = 01b and one of the two maps (R57, R60). -/
def vexKind (b1 b2 op : Byte) : Option OpKind :=
  if b2.extractLsb' 0 2 = 1#2 ∧ b1.extractLsb' 2 3 = 0#3 then opKind (b1.extractLsb' 0 2) op else none

/-- The reserved values of VEX byte 2: `W` = 1, and in an immediate form stored `vvvv` other than 1111b (R62, R78). -/
def vexReserved (kind : OpKind) (b2 : Byte) : Prop :=
  b2.getLsbD 7 = true ∨ (kind = .imm ∧ b2.extractLsb' 3 4 ≠ 15#4)

/-- The instruction of the VEX bytes with its operands; `imm8` is there in an immediate form (R60, R69, R70). -/
def vexInstr (b1 b2 : Byte) (imm : Option Byte) (reg : BitVec 3) (raw : RawRM) : Instr :=
  let d := BitVec.ofBool (!b1.getLsbD 7) ++ reg
  let rm := raw.toVex (!b1.getLsbD 5)
  match imm with
  | none => vexVarOf (b2.getLsbD 2) d (~~~(b2.extractLsb' 3 4)) rm
  | some i => vexImmOf (b2.getLsbD 2) d rm i

theorem wf_vexInstr (b1 b2 : Byte) (imm : Option Byte) (reg : BitVec 3) (raw : RawRM) :
    (vexInstr b1 b2 imm reg raw).wf = raw.wf := by
  cases imm <;> simp [vexInstr]

theorem instrLen_vexInstr (b1 b2 : Byte) (imm : Option Byte) (reg : BitVec 3) (raw : RawRM) :
    instrLen (vexInstr b1 b2 imm reg raw) = 5 + raw.tailLen + imm.isSome.toNat := by
  cases imm <;> simp [vexInstr, vexLen]

section DecodeVex
variable {b1 b2 op : Byte} {kind : OpKind}

theorem vexKind_eq_some_iff :
    vexKind b1 b2 op = some kind ↔
      b2.extractLsb' 0 2 = 1#2 ∧ b1.extractLsb' 2 3 = 0#3 ∧ opKind (b1.extractLsb' 0 2) op = some kind := by
  rw [vexKind, Option.ite_none_right_eq_some, and_assoc]

theorem decodeVex_eq_notThis (h : vexKind b1 b2 op = none) (bs : List Byte) :
    decodeVex (b1 :: b2 :: op :: bs) = .notThis := by
  by_cases hpp : b2.extractLsb' 0 2 = 1#2
  · by_cases hmap : b1.extractLsb' 2 3 = 0#3
    · have hop : opKind (b1.extractLsb' 0 2) op = none := by simpa [vexKind, hpp, hmap] using h
      simp [decodeVex, hop]
    · simp [decodeVex, hmap]
  · simp [decodeVex, hpp]

theorem decodeVex_eq_ud (hkind : vexKind b1 b2 op = some kind) (h : vexReserved kind b2) (bs : List Byte) :
    decodeVex (b1 :: b2 :: op :: bs) = .ud := by
  obtain ⟨hpp, hmap, hop⟩ := vexKind_eq_some_iff.mp hkind
  by_cases hw : b2.getLsbD 7 = true
  · simp [decodeVex, hpp, hmap, hop, hw]
  · simp [decodeVex, hpp, hmap, hop, h.resolve_left hw]

theorem decodeVex_eq_decodeOperands (hkind : vexKind b1 b2 op = some kind) (h : ¬vexReserved kind b2)
    (bs : List Byte) :
    decodeVex (b1 :: b2 :: op :: bs) =
      decodeOperands kind (vexInstr b1 b2) (!b1.getLsbD 6) (!b1.getLsbD 5) bs := by
  obtain ⟨hpp, hmap, hop⟩ := vexKind_eq_some_iff.mp hkind
  obtain ⟨hw, hvvvv⟩ := not_or.mp h
  simp only [decodeVex, hpp, hmap, hop, ne_eq, not_true_eq_false, if_false, if_neg hw, if_neg hvvvv]
  rfl

end DecodeVex

/-! ### The EVEX decoder, case by case -/

/-- The bits of `P0` and `P1` that have one value only: `P0[3:2]` = 00b and `P1[2]` = 1 (R63). -/
def evexFixedBits (p0 p1 : Byte) : Prop := p0.extractLsb' 2 2 = 0#2 ∧ p1.getLsbD 2 = true

/-- The opcode that the EVEX bytes and the opcode byte select, with `pp` = 01b and one of the two maps (R57, R63). -/
def evexKind (p0 p1 op : Byte) : Option OpKind :=
  if p1.extractLsb' 0 2 = 1#2 then opKind (p0.extractLsb' 0 2) op else none

/-- The reserved values of `P1` and `P2`: `W` = 1, `L'L` = 11b, zeroing without a writemask, and in an immediate form
stored `V̄'` and `vvvv` other than all ones (R65, R66, R78, R81). -/
def evexReserved (kind : OpKind) (p1 p2 : Byte) : Prop :=
  p1.getLsbD 7 = true ∨ p2.extractLsb' 5 2 = 3#2 ∨ (p2.getLsbD 7 = true ∧ p2.extractLsb' 0 3 = 0#3) ∨
    (kind = .imm ∧ (p1.extractLsb' 3 4 ≠ 15#4 ∨ p2.getLsbD 3 = false))

/-- The masking fields of `P2` (R66). -/
def evexMask (p2 : Byte) : WriteMask := ⟨p2.extractLsb' 0 3, p2.getLsbD 7⟩

/-- The instruction of the EVEX bytes with its operands; `imm8` is there in an immediate form (R63, R69, R71). -/
def evexInstr (vl : VL) (p0 p1 p2 : Byte) (imm : Option Byte) (reg : BitVec 3) (raw : RawRM) : Instr :=
  let d := BitVec.ofBool (!p0.getLsbD 4) ++ BitVec.ofBool (!p0.getLsbD 7) ++ reg
  let rm := raw.toEvex (!p0.getLsbD 6) (!p0.getLsbD 5) (p2.getLsbD 4)
  match imm with
  | none => evexVarOf vl d (BitVec.ofBool (!p2.getLsbD 3) ++ ~~~(p1.extractLsb' 3 4)) rm (evexMask p2)
  | some i => evexImmOf vl d rm (evexMask p2) i

theorem wf_evexInstr (vl : VL) (p0 p1 p2 : Byte) (imm : Option Byte) (reg : BitVec 3) (raw : RawRM) :
    (evexInstr vl p0 p1 p2 imm reg raw).wf = (raw.wf && (evexMask p2).wf) := by
  cases imm <;> simp [evexInstr]

theorem instrLen_evexInstr (vl : VL) (p0 p1 p2 : Byte) (imm : Option Byte) (reg : BitVec 3) (raw : RawRM) :
    instrLen (evexInstr vl p0 p1 p2 imm reg raw) = 6 + raw.tailLen + imm.isSome.toNat := by
  cases imm <;> simp [evexInstr, evexLen]

/-- The length field names a vector length but for the reserved value (R65). -/
theorem evexVL_eq_none_iff : ∀ ll : BitVec 2, evexVL ll = none ↔ ll = 3#2 := by decide

section DecodeEvex
variable {p0 p1 p2 op : Byte} {kind : OpKind}

theorem evexFixedBits.not_wrong (h : evexFixedBits p0 p1) :
    ¬(p0.extractLsb' 2 2 ≠ 0#2 ∨ p1.getLsbD 2 = false) := by
  simpa [evexFixedBits] using h

theorem evexKind_eq_some_iff :
    evexKind p0 p1 op = some kind ↔
      p1.extractLsb' 0 2 = 1#2 ∧ opKind (p0.extractLsb' 0 2) op = some kind := by
  rw [evexKind, Option.ite_none_right_eq_some]

theorem decodeEvex_eq_ud_of_fixedBits (h : ¬evexFixedBits p0 p1) (bs : List Byte) :
    decodeEvex (p0 :: p1 :: p2 :: op :: bs) = .ud := by
  rw [evexFixedBits, not_and_or, Bool.not_eq_true] at h
  simp only [decodeEvex, if_pos h]

theorem decodeEvex_eq_notThis (hfixed : evexFixedBits p0 p1) (h : evexKind p0 p1 op = none) (bs : List Byte) :
    decodeEvex (p0 :: p1 :: p2 :: op :: bs) = .notThis := by
  by_cases hpp : p1.extractLsb' 0 2 = 1#2
  · have hop : opKind (p0.extractLsb' 0 2) op = none := by simpa [evexKind, hpp] using h
    simp only [decodeEvex, if_neg hfixed.not_wrong, hpp, hop, ne_eq, not_true_eq_false, if_false]
  · simp only [decodeEvex, if_neg hfixed.not_wrong, ne_eq, hpp, not_false_eq_true, if_true]

theorem decodeEvex_eq_ud_of_reserved (hfixed : evexFixedBits p0 p1) (hkind : evexKind p0 p1 op = some kind)
    (h : evexReserved kind p1 p2) (bs : List Byte) : decodeEvex (p0 :: p1 :: p2 :: op :: bs) = .ud := by
  obtain ⟨hpp, hop⟩ := evexKind_eq_some_iff.mp hkind
  simp only [decodeEvex, if_neg hfixed.not_wrong, hpp, hop, ne_eq, not_true_eq_false, if_false]
  by_cases hw : p1.getLsbD 7 = true
  · rw [if_pos hw]
  · rw [if_neg hw]
    cases hvl : evexVL (p2.extractLsb' 5 2) with
    | none => rfl
    | some vl =>
      have hll : p2.extractLsb' 5 2 ≠ 3#2 := fun e => nomatch hvl ▸ (evexVL_eq_none_iff _).mpr e
      obtain hz | hvvvv := (h.resolve_left hw).resolve_left hll
      · exact if_pos hz
      · exact (if_congr Iff.rfl rfl (if_pos hvvvv)).trans (ite_self _)

/-- After EVEX and opcode bytes without fault the decoder needs ModRM; `b` = 1 with a register operand is
reserved (R67), all else is read by `decodeOperands`. -/
theorem decodeEvex_of_not_reserved (hfixed : evexFixedBits p0 p1) (hkind : evexKind p0 p1 op = some kind)
    (h : ¬evexReserved kind p1 p2) :
    decodeEvex [p0, p1, p2, op] = .more ∧
      ∃ vl, ∀ modrm bs, decodeEvex (p0 :: p1 :: p2 :: op :: modrm :: bs) =
        if modrm.extractLsb' 6 2 = 3#2 ∧ p2.getLsbD 4 = true then .ud
        else decodeOperands kind (evexInstr vl p0 p1 p2) (!p0.getLsbD 6) (!p0.getLsbD 5) (modrm :: bs) := by
  obtain ⟨hpp, hop⟩ := evexKind_eq_some_iff.mp hkind
  simp only [evexReserved, not_or] at h
  obtain ⟨hw, hll, hz, hvvvv⟩ := h
  cases hvl : evexVL (p2.extractLsb' 5 2) with
  | none => exact absurd ((evexVL_eq_none_iff _).mp hvl) hll
  | some vl =>
    simp only [decodeEvex, if_neg hfixed.not_wrong, hpp, hop, hvl, if_neg hw, if_neg hz, if_neg hvvvv, ne_eq,
      not_true_eq_false, if_false, true_and]
    exact ⟨vl, fun _ _ => rfl⟩

end DecodeEvex

/-! ### The decoder, by its first byte -/

theorem isForbiddenPrefix_iff {p : Byte} :
    isForbiddenPrefix p = true ↔
      p ∈ ([0x66, 0xF2, 0xF3, 0xF0] : List Byte) ∨ (0x40 ≤ p.toNat ∧ p.toNat ≤ 0x4F) := by
  have hrex : p.extractLsb' 4 4 = 4#4 ↔ 0x40 ≤ p.toNat ∧ p.toNat ≤ 0x4F := by
    rw [← BitVec.toNat_inj, BitVec.extractLsb'_toNat, Nat.shiftRight_eq_div_pow, BitVec.toNat_ofNat]
    have := p.isLt
    omega
  simp [isForbiddenPrefix, ← hrex, or_assoc]

theorem isRefusedPrefix_iff {p : Byte} :
    isRefusedPrefix p = true ↔ p ∈ ([0x26, 0x2E, 0x36, 0x3E, 0x64, 0x65, 0x67] : List Byte) := by
  simp [isRefusedPrefix, or_assoc]

theorem isVectorEscape_iff {e : Byte} : isVectorEscape e = true ↔ e ∈ ([0xC4, 0xC5, 0x62] : List Byte) := by
  simp [isVectorEscape, or_assoc]

/-- No byte is both forbidden and allowed before C4H, C5H and 62H (R59). -/
theorem not_isForbiddenPrefix_of_isRefusedPrefix : ∀ p : Byte,
    isRefusedPrefix p = true → ¬isForbiddenPrefix p = true := by
  decide

section Decode
variable {p : Byte}

theorem decode_of_forbidden (h : isForbiddenPrefix p = true) (e : Byte) (bs : List Byte) :
    decode (p :: e :: bs) = if isVectorEscape e then .ud else .notThis := by
  simp only [decode, if_pos h]

theorem decode_forbidden_nil (h : isForbiddenPrefix p = true) : decode [p] = .more := by
  simp only [decode, if_pos h]

theorem decode_of_refused (h : isRefusedPrefix p = true) (bs : List Byte) : decode (p :: bs) = .legacyPrefix := by
  simp only [decode, if_neg (not_isForbiddenPrefix_of_isRefusedPrefix p h), if_pos h]

theorem decode_of_other (hforbidden : ¬isForbiddenPrefix p = true) (hrefused : ¬isRefusedPrefix p = true)
    (hvex : p ≠ 0xC4#8) (hevex : p ≠ 0x62#8) (bs : List Byte) : decode (p :: bs) = .notThis := by
  simp only [decode, if_neg hforbidden, if_neg hrefused, if_neg hvex, if_neg hevex]

end Decode

/-! ### The decoder reads its bytes -/

theorem decodeVex_readsItsBytes : ReadsItsBytes decodeVex 1 := by
  refine .of_cons rfl (by decide) fun b1 => .of_cons rfl (by decide) fun b2 => .of_cons rfl (by decide) fun op => ?_
  cases hkind : vexKind b1 b2 op with
  | none => exact .notThis (decodeVex_eq_notThis hkind)
  | some kind =>
    by_cases h : vexReserved kind b2
    · exact .ud (decodeVex_eq_ud hkind h)
    · simp only [decodeVex_eq_decodeOperands hkind h]
      refine .of_cons rfl (by decide) (decodeOperands_readsItsBytes (by decide) (fun imm reg raw hraw => ?_) ?_)
      · rwa [wf_vexInstr]
      · exact instrLen_vexInstr b1 b2

theorem wf_evexMask_of_not_reserved {kind : OpKind} {p1 p2 : Byte} (h : ¬evexReserved kind p1 p2) :
    (evexMask p2).wf = true :=
  (WriteMask.wf_iff _).mpr fun hz => h (.inr (.inr (.inl hz)))

theorem decodeEvex_readsItsBytes : ReadsItsBytes decodeEvex 1 := by
  refine .of_cons rfl (by decide) fun p0 => .of_cons rfl (by decide) fun p1 => .of_cons rfl (by decide) fun p2 =>
    .of_cons rfl (by decide) fun op => ?_
  by_cases hfixed : evexFixedBits p0 p1
  · cases hkind : evexKind p0 p1 op with
    | none => exact .notThis (decodeEvex_eq_notThis hfixed hkind)
    | some kind =>
      by_cases h : evexReserved kind p1 p2
      · exact .ud (decodeEvex_eq_ud_of_reserved hfixed hkind h)
      · obtain ⟨hnil, vl, hcons⟩ := decodeEvex_of_not_reserved hfixed hkind h
        refine .of_cons hnil (by decide) fun modrm => ?_
        simp only [hcons]
        split
        · exact .ud fun _ => rfl
        · refine decodeOperands_readsItsBytes (by decide) (fun imm reg raw hraw => ?_) ?_ modrm
          · rw [wf_evexInstr, hraw, wf_evexMask_of_not_reserved h]
            rfl
          · exact instrLen_evexInstr vl p0 p1 p2
  · exact .ud (decodeEvex_eq_ud_of_fixedBits hfixed)

theorem decode_readsItsBytes : ReadsItsBytes decode 0 := by
  refine .of_cons rfl (by decide) fun p => ?_
  by_cases hforbidden : isForbiddenPrefix p = true
  · refine .of_cons (decode_forbidden_nil hforbidden) (by decide) fun e => ?_
    simp only [decode_of_forbidden hforbidden]
    split
    · exact .ud fun _ => rfl
    · exact .notThis fun _ => rfl
  · by_cases hrefused : isRefusedPrefix p = true
    · exact .legacyPrefix (decode_of_refused hrefused)
    · by_cases hvex : p = 0xC4#8
      · subst hvex
        exact decodeVex_readsItsBytes
      · by_cases hevex : p = 0x62#8
        · subst hevex
          exact decodeEvex_readsItsBytes
        · exact .notThis (decode_of_other hforbidden hrefused hvex hevex)

/-- Settles O1: the round trip, form by form. -/
theorem decodeReadsEncodeBack : Obligations.DecodeReadsEncodeBack := by
  unfold Obligations.DecodeReadsEncodeBack
  intro i rest hwf
  exact decode_encode_append hwf rest

/-- Settles O2: the bytes used are those the decoder took, and a well-formed instruction is read back (O1). -/
theorem decodedInstructionUsesItsLength : Obligations.DecodedInstructionUsesItsLength := by
  unfold Obligations.DecodedInstructionUsesItsLength
  intro bs rest i h
  obtain ⟨hwf, used, hbs, hlen⟩ := decode_readsItsBytes.instr h
  rw [Nat.zero_add] at hlen
  have hback : decode (encode i) = .instr i [] := by simpa using decode_encode_append hwf []
  exact ⟨hwf, ⟨used, hbs, hlen⟩, hback⟩

/-- Settles O3: when the decoder asks for more it has been given fewer than 12 bytes. -/
theorem twelveBytesAlwaysDecode : Obligations.TwelveBytesAlwaysDecode := by
  unfold Obligations.TwelveBytesAlwaysDecode
  intro bs hlen hmore
  have := decode_readsItsBytes.length_lt hmore
  rw [Nat.zero_add] at this
  exact absurd hlen (Nat.not_le.mpr this)

/-- An answer other than asking for more stays when more bytes follow. -/
theorem decode_append {bs : List Byte} {d : Decoded} (h : decode bs = d) (hd : d ≠ .more) (more : List Byte) :
    decode (bs ++ more) = d.append more := by
  subst h
  exact decode_readsItsBytes.append more hd

/-- Settles O4, answer by answer. -/
theorem decoderReadsNoFurther : Obligations.DecoderReadsNoFurther := by
  unfold Obligations.DecoderReadsNoFurther
  intro bs more
  exact ⟨fun i rest h => decode_append h nofun more, fun h => decode_append h nofun more,
    fun h => decode_append h nofun more, fun h => decode_append h nofun more⟩

/-- Settles O5: the words are run through the decoder. -/
theorem writtenWordsDecode : Obligations.WrittenWordsDecode := by
  unfold Obligations.WrittenWordsDecode
  refine ⟨?f1, ?f7, ?f8⟩ <;> decide

end Sys2Proof

/-! The encodings that fault and those that are refused (30_encoding.md R59, R62 to R67, R78, R81). Its one idea: the
decoder's answer on the bytes that a rule names is the step's outcome, because more bytes never change it. So each rule
is a fact about the fields of these bytes. -/

namespace Sys2Proof

/-! ### The fields that the rules name -/

/-- VEX's five map bits are three that must be 0 and the map (R60). -/
theorem vexMap_eq_iff : ∀ b1 : Byte,
    (b1.extractLsb' 0 5 = 2#5 ↔ b1.extractLsb' 2 3 = 0#3 ∧ b1.extractLsb' 0 2 = 2#2) ∧
      (b1.extractLsb' 0 5 = 3#5 ↔ b1.extractLsb' 2 3 = 0#3 ∧ b1.extractLsb' 0 2 = 3#2) := by
  decide

/-- EVEX's four low bits of `P0` are two that must be 0 and the map (R63). -/
theorem evexMap_eq_iff : ∀ p0 : Byte,
    (p0.extractLsb' 0 4 = 2#4 ↔ p0.extractLsb' 2 2 = 0#2 ∧ p0.extractLsb' 0 2 = 2#2) ∧
      (p0.extractLsb' 0 4 = 3#4 ↔ p0.extractLsb' 2 2 = 0#2 ∧ p0.extractLsb' 0 2 = 3#2) := by
  decide

/-- The three low bits of `P1` are one that must be 1 and `pp` (R63). -/
theorem evexPP_eq_iff : ∀ p1 : Byte,
    p1.extractLsb' 0 3 = 5#3 ↔ p1.getLsbD 2 = true ∧ p1.extractLsb' 0 2 = 1#2 := by
  decide

/-- The two pairs of map and opcode byte, each with its kind of control (R57). -/
theorem opKind_eq_some_iff {map : BitVec 2} {op : Byte} {kind : OpKind} :
    opKind map op = some kind ↔
      (kind = .var ∧ map = 2#2 ∧ op = 0x0C) ∨ (kind = .imm ∧ map = 3#2 ∧ op = 0x04) := by
  unfold opKind
  split_ifs <;> simp_all [eq_comm]

theorem eq_imm_of_opKind {map : BitVec 2} {kind : OpKind} (h : opKind map 0x04 = some kind) : kind = .imm := by
  obtain ⟨_, _, hop⟩ | ⟨hkind, _⟩ := opKind_eq_some_iff.mp h
  · exact absurd hop (by decide)
  · exact hkind

/-- The VEX bytes and the opcode byte select an opcode exactly with `pp` = 01b and one of the two pairs (R57, R60). -/
theorem exists_vexKind_iff {b1 b2 op : Byte} :
    (∃ kind, vexKind b1 b2 op = some kind) ↔
      b2.extractLsb' 0 2 = 1#2 ∧
        (b1.extractLsb' 0 5 = 2#5 ∧ op = 0x0C ∨ b1.extractLsb' 0 5 = 3#5 ∧ op = 0x04) := by
  obtain ⟨hvar, himm⟩ := vexMap_eq_iff b1
  simp only [vexKind_eq_some_iff, opKind_eq_some_iff, hvar, himm, exists_and_left, exists_or, exists_eq_left,
    and_or_left, and_assoc]

theorem vexKind_eq_none_iff {b1 b2 op : Byte} :
    vexKind b1 b2 op = none ↔ b2.extractLsb' 0 2 ≠ 1#2 ∨
      ¬(b1.extractLsb' 0 5 = 2#5 ∧ op = 0x0C ∨ b1.extractLsb' 0 5 = 3#5 ∧ op = 0x04) := by
  rw [← not_and_or, ← exists_vexKind_iff, ← Option.ne_none_iff_exists', not_not]

/-- The EVEX bytes and the opcode byte select an opcode exactly with `pp` = 01b and one of the two pairs (R57, R63). -/
theorem exists_evexKind_iff {p0 p1 op : Byte} :
    (∃ kind, evexKind p0 p1 op = some kind) ↔
      p1.extractLsb' 0 2 = 1#2 ∧
        (p0.extractLsb' 0 2 = 2#2 ∧ op = 0x0C ∨ p0.extractLsb' 0 2 = 3#2 ∧ op = 0x04) := by
  simp only [evexKind_eq_some_iff, opKind_eq_some_iff, exists_and_left, exists_or, exists_eq_left]

theorem evexKind_eq_none_iff {p0 p1 op : Byte} :
    evexKind p0 p1 op = none ↔ p1.extractLsb' 0 2 ≠ 1#2 ∨
      ¬(p0.extractLsb' 0 2 = 2#2 ∧ op = 0x0C ∨ p0.extractLsb' 0 2 = 3#2 ∧ op = 0x04) := by
  rw [← not_and_or, ← exists_evexKind_iff, ← Option.ne_none_iff_exists', not_not]

/-- The fields that the rules name make the EVEX bytes those of VPERMILPS (R63, R64). -/
theorem evexKind_of_fields {p0 p1 op : Byte} (hpp : p1.extractLsb' 0 3 = 5#3)
    (hop : p0.extractLsb' 0 4 = 2#4 ∧ op = 0x0C ∨ p0.extractLsb' 0 4 = 3#4 ∧ op = 0x04) :
    evexFixedBits p0 p1 ∧ ∃ kind, evexKind p0 p1 op = some kind := by
  obtain ⟨hvar, himm⟩ := evexMap_eq_iff p0
  rw [hvar, himm] at hop
  obtain ⟨hone, hpp⟩ := (evexPP_eq_iff p1).mp hpp
  rw [exists_evexKind_iff]
  obtain ⟨⟨hzero, hmap⟩, hop⟩ | ⟨⟨hzero, hmap⟩, hop⟩ := hop
  · exact ⟨⟨hzero, hone⟩, hpp, .inl ⟨hmap, hop⟩⟩
  · exact ⟨⟨hzero, hone⟩, hpp, .inr ⟨hmap, hop⟩⟩

end Sys2Proof

namespace Sys2Proof.Machine

/-! ### The step follows the decoder's answer -/

section Step
variable {s : State} {bs : List Byte}

/-- The fetch decodes the bytes that stand at `rip` as far as they decide the answer (R80). -/
theorem fetchDecode_of_decode {d : Decoded} (hcode : codeAt s s.rip.toNat bs) (h : decode bs = d) (hd : d ≠ .more)
    (hlen : bs.length ≤ fetchLimit) : ∃ rest, fetchDecode s = d.append rest := by
  rw [fetchDecode, fetchWindow_of_codeAt s _ _ _ hcode hlen]
  exact ⟨_, decode_append h hd _⟩

theorem step_eq_ud (hmode : s.mode64 = true) (hcode : codeAt s s.rip.toNat bs) (h : decode bs = .ud)
    (hlen : bs.length ≤ fetchLimit := by simp [fetchLimit]) : step s = .fault .ud := by
  obtain ⟨_, hfetch⟩ := fetchDecode_of_decode hcode h nofun hlen
  simp [step, hmode, hfetch, Decoded.append, raise]

theorem step_eq_legacyPrefix (hmode : s.mode64 = true) (hcode : codeAt s s.rip.toNat bs)
    (h : decode bs = .legacyPrefix) (hlen : bs.length ≤ fetchLimit := by simp [fetchLimit]) :
    step s = .refused .legacyPrefix := by
  obtain ⟨_, hfetch⟩ := fetchDecode_of_decode hcode h nofun hlen
  simp [step, hmode, hfetch, Decoded.append]

theorem step_eq_notVpermilps (hmode : s.mode64 = true) (hcode : codeAt s s.rip.toNat bs) (h : decode bs = .notThis)
    (hlen : bs.length ≤ fetchLimit := by simp [fetchLimit]) : step s = .refused .notVpermilps := by
  obtain ⟨_, hfetch⟩ := fetchDecode_of_decode hcode h nofun hlen
  simp [step, hmode, hfetch, Decoded.append]

end Step

/-- Settles O6: in 64-bit mode the step follows the answer of the decoder. -/
theorem stepRunsDecodedInstruction : Obligations.StepRunsDecodedInstruction := by
  unfold Obligations.StepRunsDecodedInstruction
  intro s i rest hmode h
  exact step_eq_exec_of_fetchDecode hmode h

/-! ### Reserved encodings -/

/-- Settles O8: `W` = 1 is reserved. -/
theorem vexWSetIsUndefined : Obligations.VexWSetIsUndefined := by
  unfold Obligations.VexWSetIsUndefined
  intro s b1 b2 op hmode hcode hpp hop hw
  obtain ⟨kind, hkind⟩ := exists_vexKind_iff.mpr ⟨hpp, hop⟩
  exact step_eq_ud hmode hcode (decodeVex_eq_ud hkind (.inl hw) [])

/-- Settles O10: each of the four is a reserved value of `P1` and `P2`. -/
theorem reservedEvexFieldsAreUndefined : Obligations.ReservedEvexFieldsAreUndefined := by
  unfold Obligations.ReservedEvexFieldsAreUndefined
  intro s p0 p1 p2 op hmode hcode hpp hop h
  obtain ⟨hfixed, kind, hkind⟩ := evexKind_of_fields hpp hop
  have hreserved : evexReserved kind p1 p2 := by
    obtain hw | hll | hz | ⟨rfl, hv'⟩ := h
    · exact .inl hw
    · exact .inr (.inl hll)
    · exact .inr (.inr (.inl hz))
    · obtain ⟨_, hopKind⟩ := evexKind_eq_some_iff.mp hkind
      exact .inr (.inr (.inr ⟨eq_imm_of_opKind hopKind, .inr hv'⟩))
  exact step_eq_ud hmode hcode (decodeEvex_eq_ud_of_reserved hfixed hkind hreserved [])

/-- Settles O9: in an immediate form these values of `vvvv` and `V̄'` are reserved. -/
theorem immediateFormNeedsAllOnesVvvv : Obligations.ImmediateFormNeedsAllOnesVvvv := by
  unfold Obligations.ImmediateFormNeedsAllOnesVvvv
  refine fun s hmode => ⟨fun b1 b2 hcode hmap hpp hvvvv => ?_, fun p0 p1 p2 hcode hmap hpp hvvvv => ?_⟩
  · obtain ⟨kind, hkind⟩ := exists_vexKind_iff.mpr ⟨hpp, .inr ⟨hmap, rfl⟩⟩
    obtain ⟨_, _, hopKind⟩ := vexKind_eq_some_iff.mp hkind
    exact step_eq_ud hmode hcode (decodeVex_eq_ud hkind (.inr ⟨eq_imm_of_opKind hopKind, hvvvv⟩) [])
  · obtain ⟨hfixed, kind, hkind⟩ := evexKind_of_fields hpp (.inr ⟨hmap, rfl⟩)
    obtain ⟨_, hopKind⟩ := evexKind_eq_some_iff.mp hkind
    have hreserved : evexReserved kind p1 p2 := .inr (.inr (.inr ⟨eq_imm_of_opKind hopKind, hvvvv⟩))
    exact step_eq_ud hmode hcode (decodeEvex_eq_ud_of_reserved hfixed hkind hreserved [])

/-- Settles O11: these bits have one value only. -/
theorem reservedEvexBitsAreUndefined : Obligations.ReservedEvexBitsAreUndefined := by
  unfold Obligations.ReservedEvexBitsAreUndefined
  intro s p0 p1 p2 op hmode hcode h
  exact step_eq_ud hmode hcode (decodeEvex_eq_ud_of_fixedBits (fun hfixed => hfixed.not_wrong h) [])

/-- Settles O12: either `P1` and `P2` are reserved already, or ModRM with `b` = 1 is. -/
theorem broadcastOfRegisterIsUndefined : Obligations.BroadcastOfRegisterIsUndefined := by
  unfold Obligations.BroadcastOfRegisterIsUndefined
  intro s p0 p1 p2 op modrm hmode hcode hpp hop hmod hb
  obtain ⟨hfixed, kind, hkind⟩ := evexKind_of_fields hpp hop
  refine step_eq_ud hmode hcode ?_
  by_cases h : evexReserved kind p1 p2
  · exact decodeEvex_eq_ud_of_reserved hfixed hkind h [modrm]
  · obtain ⟨_, vl, hdecode⟩ := decodeEvex_of_not_reserved hfixed hkind h
    exact (hdecode modrm []).trans (if_pos ⟨hmod, hb⟩)

/-! ### Other bytes -/

/-- Settles O13: a forbidden byte is looked at with the byte after it, an allowed one alone. -/
theorem noByteBeforeThePrefix : Obligations.NoByteBeforeThePrefix := by
  unfold Obligations.NoByteBeforeThePrefix
  refine fun s hmode => ⟨fun p e hcode hp he => ?_, fun p hcode hp => ?_⟩
  · have hdecode : decode [p, e] = .ud :=
      (decode_of_forbidden (isForbiddenPrefix_iff.mpr hp) e []).trans (if_pos (isVectorEscape_iff.mpr he))
    exact step_eq_ud hmode hcode hdecode
  · exact step_eq_legacyPrefix hmode hcode (decode_of_refused (isRefusedPrefix_iff.mpr hp) [])

/-- Settles O14, clause by clause. -/
theorem otherVexEncodingsAreRefused : Obligations.OtherVexEncodingsAreRefused := by
  unfold Obligations.OtherVexEncodingsAreRefused
  intro s hmode
  refine ⟨fun b1 b2 op hcode h => ?c4, fun hcode => ?c5, fun p0 p1 p2 op hcode hzero hone h => ?evex,
    fun b hcode hb hrex => ?other, fun p e hcode hp he => ?forbidden⟩
  all_goals refine step_eq_notVpermilps hmode hcode ?_
  case c4 => exact decodeVex_eq_notThis (vexKind_eq_none_iff.mpr h) []
  case c5 => rfl
  case evex => exact decodeEvex_eq_notThis ⟨hzero, hone⟩ (evexKind_eq_none_iff.mpr h) []
  case other =>
    have hlists : b ∉ ([0x66, 0xF2, 0xF3, 0xF0] ++ [0x26, 0x2E, 0x36, 0x3E, 0x64, 0x65, 0x67] ++ [0xC4, 0x62] :
        List Byte) := hb
    simp only [List.mem_append, not_or] at hlists
    obtain ⟨⟨hlegacy, hallowed⟩, hescape⟩ := hlists
    refine decode_of_other (fun h => (isForbiddenPrefix_iff.mp h).elim hlegacy hrex)
      (fun h => hallowed (isRefusedPrefix_iff.mp h)) ?_ ?_ [] <;> exact fun h => hescape (by simp [h])
  case forbidden =>
    rw [← isVectorEscape_iff] at he
    exact (decode_of_forbidden (isForbiddenPrefix_iff.mpr hp) e []).trans (if_neg he)

end Sys2Proof.Machine

/-! The permutation and the forms around it (40_vpermilps_common.md R89 to R104). Its one idea: both permutations are one
and the same selection, which takes element `j` from the element of its own lane that a two-bit control names. So two of
them agree where their controls agree, and a law about an immediate is a law about its four fields. -/

namespace Sys2Proof.Machine

/-! ### The instruction pointer (R95) -/

/-- Below the top of memory `rip + len` is a sum of numbers. -/
theorem toNat_rip_advance {s : State} {len : Nat} (h : s.rip.toNat + len < 2 ^ 64) :
    (advance s len).rip.toNat = s.rip.toNat + len := by
  rw [advance_rip, BitVec.toNat_add, BitVec.toNat_ofNat, Nat.add_mod_mod, Nat.mod_eq_of_lt h]

/-- Settles O35: a form whose `rip + len` would wrap does not complete. -/
theorem completingFormAdvancesRip : Obligations.CompletingFormAdvancesRip := by
  unfold Obligations.CompletingFormAdvancesRip
  intro i s t h
  obtain ⟨_, hrip, x, rfl⟩ := exec_next_cases h
  rw [encode_length]
  exact toNat_rip_advance (s := writeV s (destOf i) x) hrip

/-! ### Controls that select the same elements -/

/-- The low two bits of a control are its value modulo 4 (R97). -/
theorem extractLsb'_two_eq_iff {w : Nat} {c c' : BitVec w} :
    c.extractLsb' 0 2 = c'.extractLsb' 0 2 ↔ c.toNat % 4 = c'.toNat % 4 := by
  simp [← BitVec.toNat_inj]

/-- Settles O44: the low two bits of each control are all that selects. -/
theorem highControlBitsIgnored : Obligations.HighControlBitsIgnored := by
  unfold Obligations.HighControlBitsIgnored
  intro vl src ctl ctl' h
  refine ofDwords_congr fun j hj => ?_
  rw [extractLsb'_two_eq_iff.mpr (h j hj)]

/-- Settles O43: at each position the two permutations select by the same control. -/
theorem permImmIsPermVar : Obligations.PermImmIsPermVar := by
  unfold Obligations.PermImmIsPermVar
  intro vl src ctl imm8 h
  refine ofDwords_congr fun j hj => ?_
  rw [h j hj]

/-! ### The fields of an immediate -/

/-- A lane below the vector length lies wholly below it (R88). -/
theorem laneIndex_lt_kl {vl : VL} {j q : Nat} (hj : j < vl.kl) (hq : q < 4) : 4 * (j / 4) + q < vl.kl := by
  cases vl <;> simp only [VL.kl] at hj ⊢ <;> omega

/-- An element of `PermImm`, by the field that selects it (R90). -/
theorem dword_permImm_of_lt {vl : VL} {j : Nat} (hj : j < vl.kl) (x : Vec) (c : BitVec 8) :
    dword (permImm vl x c) j = dword x (4 * (j / 4) + (c.extractLsb' (2 * (j % 4)) 2).toNat) := by
  rw [permImm, dword_ofDwords _ _ _ (hj.trans_le (VL.kl_le vl)), if_pos hj, select4_lane]

/-- An element of `PermImm` by an immediate whose four fields are known. -/
theorem dword_permImm_of_fields {vl : VL} {j : Nat} (hj : j < vl.kl) (x : Vec) {c : BitVec 8} {field : Nat → Nat}
    (h : ∀ p < 4, (c.extractLsb' (2 * p) 2).toNat = field p) :
    dword (permImm vl x c) j = dword x (4 * (j / 4) + field (j % 4)) := by
  rw [dword_permImm_of_lt hj, h _ (Nat.mod_lt j (by decide))]

/-- The element of `PermImm` that a two-bit control names in the lane of element `j`. -/
theorem dword_permImm_in_lane {vl : VL} {j : Nat} (hj : j < vl.kl) (x : Vec) (c : BitVec 8) (q : BitVec 2) :
    dword (permImm vl x c) (4 * (j / 4) + q.toNat) =
      dword x (4 * (j / 4) + (c.extractLsb' (2 * q.toNat) 2).toNat) := by
  have hq : q.toNat < 4 := q.isLt
  have hlane : (4 * (j / 4) + q.toNat) / 4 = j / 4 := by omega
  have hposition : (4 * (j / 4) + q.toNat) % 4 = q.toNat := by omega
  rw [dword_permImm_of_lt (laneIndex_lt_kl hj hq), hlane, hposition]

/-- Settles O42: the field of the second names an element of the same lane, whose position there selects the field of the
first. -/
theorem permImmComposes : Obligations.PermImmComposes := by
  unfold Obligations.PermImmComposes
  intro vl x a b c h
  refine ofDwords_congr fun j hj => ?_
  rw [select4_lane, select4_lane, dword_permImm_in_lane hj, h _ (Nat.mod_lt j (by decide))]

/-- Field `p` of E4H is `p`, so every element stays where it is (R103). -/
theorem permImm_identity (vl : VL) (x : Vec) : permImm vl x 0xE4 = lowBits vl.bits x := by
  refine vec_ext fun j hj => ?_
  rw [VL.bits_eq, dword_lowBits]
  split_ifs with hlt
  · rw [dword_permImm_of_fields hlt x (field := fun p => p) (by decide), Nat.div_add_mod]
  · rw [dword_permImm vl x _ j hj, if_neg hlt]

/-- Reversing each lane twice is the identity: field `3 - p` of 1BH is `p` (R103). -/
theorem permImm_reverse_reverse (vl : VL) (x : Vec) : permImm vl (permImm vl x 0x1B) 0x1B = lowBits vl.bits x :=
  (permImmComposes vl x 0x1B 0x1B 0xE4 (by decide)).trans (permImm_identity vl x)

/-- Settles O41, each immediate by its four fields. -/
theorem permImmNamedControls : Obligations.PermImmNamedControls := by
  unfold Obligations.PermImmNamedControls
  intro vl x
  refine ⟨permImm_identity vl x, fun j hj => ⟨?copy0, ?copy1, ?copy2, ?copy3⟩, fun j hj => ⟨?reverse, ?halves, ?pairs⟩,
    permImm_reverse_reverse vl x⟩
  case copy0 => exact dword_permImm_of_fields hj x (field := fun _ => 0) (by decide)
  case copy1 => exact dword_permImm_of_fields hj x (field := fun _ => 1) (by decide)
  case copy2 => exact dword_permImm_of_fields hj x (field := fun _ => 2) (by decide)
  case copy3 => exact dword_permImm_of_fields hj x (field := fun _ => 3) (by decide)
  case reverse => exact dword_permImm_of_fields hj x (field := fun p => 3 - p) (by decide)
  case halves => exact dword_permImm_of_fields hj x (field := fun p => (p + 2) % 4) (by decide)
  case pairs =>
    have hparity : j % 4 % 2 = j % 2 := Nat.mod_mod_of_dvd j (by decide)
    rw [← hparity]
    exact dword_permImm_of_fields hj x (field := fun p => p / 2 * 2 + (1 - p % 2)) (by decide)

/-! ### An unmasked EVEX form and the VEX form of its length (R104) -/

/-- A memory operand is read by its effective-address sum, whatever the displacement's factor and the length. -/
theorem operandAt_congr {s : State} {factor factor' len len' : Nat} {a a' : Addr}
    (h : addrInt s factor len a = addrInt s factor' len' a') (n : Nat) :
    operandAt s factor len a n = operandAt s factor' len' a' n := by
  simp only [operandAt, addressInRange, effAddr_eq_ofInt, h]

/-- `FetchRM` of the same operand is the same for both encodings (R91). -/
theorem fetchEvexRM_eq_of_sameOperand {s : State} {vl : VL} {len len' : Nat} {rm : VexRM} {rm' : EvexRM}
    (h : sameOperand s vl.bytes len len' rm rm') : fetchEvexRM s vl len' rm' = fetchVexRM s vl len rm := by
  cases rm with
  | reg m =>
    cases rm' with
    | reg m' => rw [show m' = m.setWidth 5 from h]; rfl
    | mem => exact h.elim
  | mem a =>
    cases rm' with
    | reg => exact h.elim
    | mem a' bcst =>
      obtain ⟨rfl, hsum⟩ := h
      exact (andThen_next_right _).trans (operandAt_congr hsum.symm _)

/-- Enabled more than 12 bytes below the top of memory, an unmasked instruction whose operand is fetched completes with
the permuted vector. -/
theorem exec_of_unmasked {i : Instr} {s : State} {x : Vec} (hmask : (maskOf i).aaa = 0)
    (hrip : s.rip.toNat + 12 < 2 ^ 64) (hen : enabled i.form s = true) (hfetch : fetchOf i s = .next x) :
    exec i s = .next (advance (writeV s (destOf i) (permutedOf i s x)) (instrLen i)) := by
  obtain ⟨_, _, hmax⟩ := encodedLength i
  have hlen : s.rip.toNat + instrLen i < 2 ^ 64 := (Nat.add_le_add_left hmax _).trans_lt hrip
  rw [← resultOf_eq_permutedOf hmask]
  exact exec_next_iff.mpr ⟨hen, hlen, x, hfetch, rfl⟩

/-- Two unmasked instructions that fetch the same operand, and compute the same vector from it for the same destination,
leave the same vector registers. -/
theorem exec_sameRegisters_of_unmasked {i i' : Instr} {s : State} {x : Vec} (hmask : (maskOf i).aaa = 0)
    (hmask' : (maskOf i').aaa = 0) (hdest : destOf i = destOf i') (hperm : permutedOf i s x = permutedOf i' s x)
    (hrip : s.rip.toNat + 12 < 2 ^ 64) (hen : enabled i.form s = true) (hen' : enabled i'.form s = true)
    (hfetch : fetchOf i s = .next x) (hfetch' : fetchOf i' s = fetchOf i s) :
    ∃ t u, exec i s = .next t ∧ exec i' s = .next u ∧ t.v = u.v := by
  refine ⟨_, _, exec_of_unmasked hmask hrip hen hfetch, exec_of_unmasked hmask' hrip hen' (hfetch'.trans hfetch), ?_⟩
  rw [advance_v, advance_v, hdest, hperm]

/-- Settles O45: in each pair the encodings differ in their length and their reach only. -/
theorem unmaskedEvexEqualsVex : Obligations.UnmaskedEvexEqualsVex := by
  unfold Obligations.UnmaskedEvexEqualsVex
  intro d s1 rm rm' imm8 s x hrip
  refine ⟨?f1f5, ?f3f6, ?f2f8, ?f4f9⟩ <;> intro hen hen' hsame hfetch <;>
    exact exec_sameRegisters_of_unmasked rfl rfl rfl rfl hrip hen hen' hfetch (fetchEvexRM_eq_of_sameOperand hsame)

end Sys2Proof.Machine

/-! The variable-control forms (41_vpermilps_variable.md R105 to R109). Its one idea: what any form leaves in its
destination is, element by element, its permuted vector under its writemask, because an enabled form is no longer than
the register it writes. A VEX form is the case without a writemask. -/

namespace Sys2Proof.Machine

/-! ### The destination after an instruction -/

/-- An enabled form is no longer than a vector register (00_scope.md R9, D1). -/
theorem bits_le_maxvl_of_enabled {f : Form} {s : State} (h : enabled f s = true) : f.vl.bits ≤ maxvl s.cfg := by
  cases hevex : f.isEvex with
  | false =>
    have hshort : f.vl.bits ≤ 256 := by
      cases f with
      | f1 | f2 | f3 | f4 => decide
      | f5 | f6 | f7 | f8 | f9 | f10 => simp [Form.isEvex] at hevex
    unfold maxvl
    split_ifs <;> omega
  | true =>
    rw [maxvl, if_pos (hasAVX512F_of_enabled hevex h), VL.bits_eq]
    exact Nat.mul_le_mul_left 32 (VL.kl_le f.vl)

/-- Cutting a vector built from its elements to a width that holds them all keeps it. -/
theorem lowBits_ofDwords {n w : Nat} (h : 32 * n ≤ w) (f : Nat → Dword) : lowBits w (ofDwords n f) = ofDwords n f := by
  apply BitVec.eq_of_getLsbD_eq
  intro b _
  rw [getLsbD_lowBits, getLsbD_ofDwords]
  by_cases hb : b < 32 * n
  · simp [hb, hb.trans_le h]
  · simp [hb]

/-- The destination reads back as the whole result (R93): cutting it to the register takes nothing away. -/
theorem readV_destOf_writeV_resultOf {i : Instr} {s : State} (hen : enabled i.form s = true) (x : Vec) :
    readV (writeV s (destOf i) (resultOf i s x)) (destOf i) = resultOf i s x := by
  rw [readV_writeV_same]
  exact lowBits_ofDwords (VL.bits_eq _ ▸ bits_le_maxvl_of_enabled hen) _

theorem maskedElement_of_unmasked {m : WriteMask} (h : m.aaa = 0) (s : State) (d : BitVec 5) (tmp : Dword) (j : Nat) :
    maskedElement s d m tmp j = tmp := if_pos (.inl h)

/-- The elements of what an instruction writes: below `KL` the permuted ones under the writemask, the old destination
being the whole register's, and zeros from there on (R92, R93). -/
theorem hasElements_resultOf (i : Instr) (s : State) (x : Vec) :
    hasElements (resultOf i s x) i.form.vl.kl
      fun j => maskedElement s (destOf i) (maskOf i) (dword (permutedOf i s x) j) j := by
  intro j hj
  rw [resultOf, dword_applyMask _ _ _ _ _ _ hj]
  by_cases hlt : j < i.form.vl.kl
  · simp [hlt, maskedElement, dword_readVL]
  · simp [hlt]

/-- An enabled instruction whose operand is fetched and whose `rip + len` does not wrap completes, and its destination
holds the elements `tmp` of its permuted vector under its writemask. -/
theorem exec_hasElements {i : Instr} {s : State} {x : Vec} {tmp : Nat → Dword} (hen : enabled i.form s = true)
    (hrip : s.rip.toNat + instrLen i < 2 ^ 64) (hfetch : fetchOf i s = .next x)
    (htmp : ∀ j < i.form.vl.kl, dword (permutedOf i s x) j = tmp j) :
    ∃ t, exec i s = .next t ∧
      hasElements (readV t (destOf i)) i.form.vl.kl (fun j => maskedElement s (destOf i) (maskOf i) (tmp j) j) ∧
      t.rip = s.rip + BitVec.ofNat 64 (instrLen i) := by
  refine ⟨_, exec_next_iff.mpr ⟨hen, hrip, x, hfetch, rfl⟩, fun j hj => ?_, rfl⟩
  rw [readV_advance, readV_destOf_writeV_resultOf hen, hasElements_resultOf i s x j hj]
  split_ifs with hlt
  · exact congrArg (maskedElement s (destOf i) (maskOf i) · j) (htmp j hlt)
  · rfl

/-- Without a writemask the destination holds the elements of the permuted vector themselves. -/
theorem exec_hasElements_of_unmasked {i : Instr} {s : State} {x : Vec} {tmp : Nat → Dword}
    (hmask : (maskOf i).aaa = 0) (hen : enabled i.form s = true) (hrip : s.rip.toNat + instrLen i < 2 ^ 64)
    (hfetch : fetchOf i s = .next x) (htmp : ∀ j < i.form.vl.kl, dword (permutedOf i s x) j = tmp j) :
    ∃ t, exec i s = .next t ∧ hasElements (readV t (destOf i)) i.form.vl.kl tmp ∧
      t.rip = s.rip + BitVec.ofNat 64 (instrLen i) := by
  simpa only [maskedElement_of_unmasked hmask] using exec_hasElements hen hrip hfetch htmp

/-! ### The permuted vector of a variable-control form -/

/-- `PermVar` of a register's low `VL` bits takes the elements of the whole register, because the lane of an element
below `KL` lies below `VL` (R88, R89). -/
theorem dword_permVar_readVL {vl : VL} {j : Nat} (hj : j < vl.kl) (s : State) (n : BitVec 5) (ctl : Vec) :
    dword (permVar vl (readVL s vl n) ctl) j = varSource (readV s n) ctl j := by
  have hsource := laneIndex_lt_kl hj (Nat.mod_lt (dword ctl j).toNat (by decide))
  rw [dword_permVar _ _ _ _ (hj.trans_le (VL.kl_le vl)), if_pos hj, varSource, varSource, dword_readVL, if_pos hsource]

/-! ### The five forms -/

/-- Settles O24: F1 has no writemask, and its permuted vector is that of R105. -/
theorem vexVar128Result : Obligations.VexVar128Result := by
  unfold Obligations.VexVar128Result
  intro d s1 rm s ctl hen hrip hfetch
  exact exec_hasElements_of_unmasked (i := .vexVar128 d s1 rm) rfl hen hrip hfetch
    fun j hj => dword_permVar_readVL hj s (s1.setWidth 5) ctl

/-- Settles O25: F3 has no writemask, and its permuted vector is that of R106. -/
theorem vexVar256Result : Obligations.VexVar256Result := by
  unfold Obligations.VexVar256Result
  intro d s1 rm s ctl hen hrip hfetch
  exact exec_hasElements_of_unmasked (i := .vexVar256 d s1 rm) rfl hen hrip hfetch
    fun j hj => dword_permVar_readVL hj s (s1.setWidth 5) ctl

/-- Settles O28: the permuted vector of F5 is that of R107. -/
theorem evexVar128Result : Obligations.EvexVar128Result := by
  unfold Obligations.EvexVar128Result
  intro d s1 rm m s ctl hen hrip hfetch
  exact exec_hasElements (i := .evexVar128 d s1 rm m) hen hrip hfetch fun j hj => dword_permVar_readVL hj s s1 ctl

/-- Settles O29: the permuted vector of F6 is that of R108. -/
theorem evexVar256Result : Obligations.EvexVar256Result := by
  unfold Obligations.EvexVar256Result
  intro d s1 rm m s ctl hen hrip hfetch
  exact exec_hasElements (i := .evexVar256 d s1 rm m) hen hrip hfetch fun j hj => dword_permVar_readVL hj s s1 ctl

/-- Settles O30: the permuted vector of F7 is that of R109. -/
theorem evexVar512Result : Obligations.EvexVar512Result := by
  unfold Obligations.EvexVar512Result
  intro d s1 rm m s ctl hen hrip hfetch
  exact exec_hasElements (i := .evexVar512 d s1 rm m) hen hrip hfetch fun j hj => dword_permVar_readVL hj s s1 ctl

end Sys2Proof.Machine

/-! The immediate-control forms (42_vpermilps_immediate.md R110 to R114). Its one idea: element `j` of the permuted vector
is the element of its own lane that field `j mod 4` of `imm8` names, at every vector length; what a form leaves of it
in the destination is said above for any form. -/

namespace Sys2Proof.Machine

/-! ### The permuted vector of an immediate-control form -/

/-- Below `KL` the elements of `PermImm` are the selected ones (R90). -/
theorem dword_permImm_eq_immSource {vl : VL} {j : Nat} (hj : j < vl.kl) (src : Vec) (imm8 : BitVec 8) :
    dword (permImm vl src imm8) j = immSource src imm8 j := by
  rw [dword_permImm _ _ _ _ (hj.trans_le (VL.kl_le vl)), if_pos hj]

/-! ### The five forms -/

/-- Settles O26: F2 has no writemask, and its permuted vector is that of R110. -/
theorem vexImm128Result : Obligations.VexImm128Result := by
  unfold Obligations.VexImm128Result
  intro d rm imm8 s src hen hrip hfetch
  exact exec_hasElements_of_unmasked (i := .vexImm128 d rm imm8) rfl hen hrip hfetch
    fun j hj => dword_permImm_eq_immSource hj src imm8

/-- Settles O27: F4 has no writemask, and its permuted vector is that of R111; the bits above 255 are cleared as for any
form (90_conflicts.md C4, D12). -/
theorem vexImm256Result : Obligations.VexImm256Result := by
  unfold Obligations.VexImm256Result
  intro d rm imm8 s src hen hrip hfetch
  exact exec_hasElements_of_unmasked (i := .vexImm256 d rm imm8) rfl hen hrip hfetch
    fun j hj => dword_permImm_eq_immSource hj src imm8

/-- Settles O31: the permuted vector of F8 is that of R112. -/
theorem evexImm128Result : Obligations.EvexImm128Result := by
  unfold Obligations.EvexImm128Result
  intro d rm m imm8 s src hen hrip hfetch
  exact exec_hasElements (i := .evexImm128 d rm m imm8) hen hrip hfetch
    fun j hj => dword_permImm_eq_immSource hj src imm8

/-- Settles O32: the permuted vector of F9 is that of R113. -/
theorem evexImm256Result : Obligations.EvexImm256Result := by
  unfold Obligations.EvexImm256Result
  intro d rm m imm8 s src hen hrip hfetch
  exact exec_hasElements (i := .evexImm256 d rm m imm8) hen hrip hfetch
    fun j hj => dword_permImm_eq_immSource hj src imm8

/-- Settles O33: the permuted vector of F10 is that of R114. -/
theorem evexImm512Result : Obligations.EvexImm512Result := by
  unfold Obligations.EvexImm512Result
  intro d rm m imm8 s src hen hrip hfetch
  exact exec_hasElements (i := .evexImm512 d rm m imm8) hen hrip hfetch
    fun j hj => dword_permImm_eq_immSource hj src imm8

end Sys2Proof.Machine

/-! The compiler intrinsics (43_intrinsics.md R115, R116; log 26). Its one idea: an intrinsic and each of its forms build
their value by the same permutation and the same masking, on operands of which the form reads the low `VL` bits. They
differ in the mask alone, which the form finds in the register its selector names and the intrinsic is given as `k`. -/

namespace Sys2Proof.Machine

/-- A form computes an intrinsic when the vector it writes is the intrinsic's value: the destination reads back as that
vector (R93). -/
theorem computes_of_resultOf {i : Instr} {s : State} {f : Intrinsic} {x : IntrinsicArgs} {src : Vec}
    (hfetch : fetchOf i s = .next src) (hvalue : resultOf i s src = intrinsicValue f x) : computes i s f x := by
  intro t ht
  obtain ⟨hen, _, src', hfetch', rfl⟩ := exec_next_iff.mp ht
  obtain rfl : src = src' := by simpa [hfetch] using hfetch'
  rw [readV_advance, readV_destOf_writeV_resultOf hen, hvalue]

/-- Without a writemask it is enough that the permuted vector is the intrinsic's value. -/
theorem computes_of_unmasked {i : Instr} {s : State} {f : Intrinsic} {x : IntrinsicArgs} {src : Vec}
    (hmask : (maskOf i).aaa = 0) (hfetch : fetchOf i s = .next src)
    (hvalue : permutedOf i s src = intrinsicValue f x) : computes i s f x :=
  computes_of_resultOf hfetch ((resultOf_eq_permutedOf hmask s src).trans hvalue)

/-- Which selector other than 0 names the mask does not matter, and of the mask no more than its low 16 bits, one for
each element of the longest vector (R92). -/
theorem applyMask_eq_lowMask {k : BitVec 3} (hk : k ≠ 0) (vl : VL) (old tmp : Vec) (mask : Word) (z : Bool) :
    applyMask vl old tmp mask ⟨k, z⟩ = applyMask vl old tmp ((mask.setWidth 16).setWidth 64) ⟨1, z⟩ := by
  refine ofDwords_congr fun j hj => ?_
  have hj16 : j < 16 := hj.trans_le (VL.kl_le vl)
  have hbit : ((mask.setWidth 16).setWidth 64).getLsbD j = mask.getLsbD j := by
    simp [hj16, hj16.trans (by decide : 16 < 64)]
  have hselector : (k == 0#3) = false := beq_false_of_ne hk
  rw [hbit, hselector]
  rfl

/-- Under a writemask the permuted vector, masked by the low 16 bits of the selected mask, has to be the intrinsic's
value. -/
theorem computes_of_masked {i : Instr} {s : State} {f : Intrinsic} {x : IntrinsicArgs} {src : Vec}
    (hmask : (maskOf i).aaa ≠ 0) (hfetch : fetchOf i s = .next src)
    (hvalue : applyMask i.form.vl (readVL s i.form.vl (destOf i)) (permutedOf i s src)
      (((readK s (maskOf i).aaa).setWidth 16).setWidth 64) ⟨1, (maskOf i).z⟩ = intrinsicValue f x) :
    computes i s f x :=
  computes_of_resultOf hfetch ((applyMask_eq_lowMask hmask ..).trans hvalue)

/-- Settles O46: the first source holds `a` and the `r/m` register the control vector, under the mask `k` or none. -/
theorem permutevarIntrinsicsMatch : Obligations.PermutevarIntrinsicsMatch := by
  unfold Obligations.PermutevarIntrinsicsMatch
  intro d s1 m dv sv mv k s hk
  refine ⟨?f7, ?f7Merging, ?f7Zeroing, ?f6Merging, ?f6Zeroing, ?f5Merging, ?f5Zeroing, ?f1, ?f3, ?f5, ?f6⟩
  case f1 | f3 | f5 | f6 | f7 => exact computes_of_unmasked rfl rfl rfl
  case f5Merging | f5Zeroing | f6Merging | f6Zeroing | f7Merging | f7Zeroing => exact computes_of_masked hk rfl rfl

/-- Settles O47: the `r/m` register holds `a`, and `imm8` the low 8 bits of the `int`, under the mask `k` or none; F4
clears its destination above bit 255 as any form does (90_conflicts.md C4, D12). -/
theorem permuteIntrinsicsMatch : Obligations.PermuteIntrinsicsMatch := by
  unfold Obligations.PermuteIntrinsicsMatch
  intro d m dv mv k imm s hk
  refine ⟨?f10, ?f10Merging, ?f10Zeroing, ?f9Merging, ?f9Zeroing, ?f8Merging, ?f8Zeroing, ?f2, ?f4, ?f8, ?f9⟩
  case f2 | f4 | f8 | f9 | f10 => exact computes_of_unmasked rfl rfl rfl
  case f8Merging | f8Zeroing | f9Merging | f9Zeroing | f10Merging | f10Zeroing =>
    exact computes_of_masked hk rfl rfl

end Sys2Proof.Machine

/-! Exceptions (60_exceptions.md R119 to R131). Its one idea: an exception is decided before anything is written. A byte
that the decoder needs comes first, then the check before every form, which in 64-bit mode asks two questions, whether a
line of `CheckUD` holds and whether `CR0.TS` is set. So a run ends in the state in which its last step faults, and what
every step keeps is kept up to there. -/

namespace Sys2Proof.Machine

/-! ### The check before every form -/

/-- The rows of the CPUID flags (R120): a VEX form needs AVX, an EVEX form AVX512F, and one of the 128-bit and 256-bit
EVEX forms AVX512VL. -/
theorem capable_iff (f : Form) (c : Config) :
    capable f c = true ↔
      (f ∈ [Form.f1, .f2, .f3, .f4] → c.hasAVX = true) ∧
        (f ∈ [Form.f5, .f6, .f7, .f8, .f9, .f10] → c.hasAVX512F = true) ∧
        (f ∈ [Form.f5, .f6, .f8, .f9] → c.hasAVX512VL = true) := by
  cases f <;> simp [capable, Form.isEvex, Form.needsAVX512VL]

theorem capable_eq_false_iff (f : Form) (c : Config) :
    capable f c = false ↔
      (f ∈ [Form.f1, .f2, .f3, .f4] ∧ c.hasAVX = false) ∨
        (f ∈ [Form.f5, .f6, .f7, .f8, .f9, .f10] ∧ c.hasAVX512F = false) ∨
        (f ∈ [Form.f5, .f6, .f8, .f9] ∧ c.hasAVX512VL = false) := by
  rw [← Bool.not_eq_true, capable_iff]
  simp only [not_and_or, Classical.not_imp, Bool.not_eq_true]

theorem capable_of_enabled {f : Form} {s : State} (h : enabled f s = true) : capable f s.cfg = true := by
  simp only [enabled, Bool.and_eq_true] at h
  obtain ⟨⟨_, hcap⟩, _⟩ := h
  exact hcap

/-- The first line of `CheckUD` comes before the mode is looked at (R123, D4). -/
theorem precheck_eq_ud_of_pe_or_vm {s : State} (h : s.pe = false ∨ s.vm = true) (f : Form) :
    precheck f s = .fault .ud := by
  refine if_pos ?_
  rwa [Bool.or_eq_true, Bool.not_eq_true']

/-- In 64-bit mode any other line of `CheckUD` raises `#UD`, and only when none does is `CR0.TS` looked at (R123, R124,
R129). -/
theorem precheck_of_mode64 {s : State} (hmode : s.mode64 = true) (f : Form) :
    precheck f s =
      if s.osxsave = false ∨ s.xcr0SseAvx ≠ 3 ∨ (f.isEvex = true ∧ s.xcr0Avx512 ≠ 7) ∨ capable f s.cfg = false then
        .fault .ud
      else if s.ts = true then .fault .nm else .next () := by
  have hpe : ¬(!s.pe || s.vm) = true := by
    simp_all [State.mode64]
  rw [precheck, if_neg hpe, if_neg (by simp [hmode])]
  simp only [← ite_or]
  refine if_congr ?_ rfl rfl
  simp [capable, -Bool.and_eq_false_imp, Bool.and_eq_false_iff, or_assoc]

/-- A fault of the check is the instruction's, whatever its operand (R129). -/
theorem exec_eq_fault_of_precheck {i : Instr} {s : State} {f : Fault} (h : precheck i.form s = .fault f) :
    exec i s = .fault f := exec_fault_iff.mpr (.inl h)

/-- Settles O17: the first line in any mode, the other lines in 64-bit mode, with the CPUID flags as one condition. -/
theorem checkUDRaisesUndefined : Obligations.CheckUDRaisesUndefined := by
  unfold Obligations.CheckUDRaisesUndefined
  refine fun i s => ⟨fun h => ?_, fun hmode h => ?_⟩
  · exact exec_eq_fault_of_precheck (precheck_eq_ud_of_pe_or_vm h _)
  · rw [← capable_eq_false_iff] at h
    exact exec_eq_fault_of_precheck ((precheck_of_mode64 hmode _).trans (if_pos h))

/-- Settles O18: a form whose flags are missing is not capable, so it fails the check and is not enabled. -/
theorem missingCapabilityIsUndefined : Obligations.MissingCapabilityIsUndefined := by
  unfold Obligations.MissingCapabilityIsUndefined
  intro i s hmissing
  have hcap : ¬capable i.form s.cfg = true := by
    rw [capable_iff]
    rintro ⟨havx, havx512f, havx512vl⟩
    exact hmissing ⟨havx, fun h => havx512f (List.Sublist.mem h (by decide)),
      fun h => ⟨havx512f (List.Sublist.mem h (by decide)), havx512vl h⟩⟩
  refine ⟨fun hmode => ?_, fun t ht => ?_⟩
  · have hline : capable i.form s.cfg = false := eq_false_of_ne_true hcap
    exact exec_eq_fault_of_precheck ((precheck_of_mode64 hmode _).trans (if_pos (.inr (.inr (.inr hline)))))
  · obtain ⟨hen, _⟩ := exec_next_cases ht
    exact hcap (capable_of_enabled hen)

/-- Settles O19: no line of `CheckUD` holds, so `CR0.TS` decides. -/
theorem taskSwitchedRaisesNM : Obligations.TaskSwitchedRaisesNM := by
  unfold Obligations.TaskSwitchedRaisesNM
  intro i s hmode hosxsave hxcr0 hxcr0Evex hcap hts
  have hnone : ¬(s.osxsave = false ∨ s.xcr0SseAvx ≠ 3 ∨ (i.form.isEvex = true ∧ s.xcr0Avx512 ≠ 7) ∨
      capable i.form s.cfg = false) := by
    rintro (h | h | ⟨hevex, h⟩ | h)
    · exact absurd (hosxsave.symm.trans h) nofun
    · exact h hxcr0
    · exact h (hxcr0Evex hevex)
    · exact absurd (hcap.symm.trans h) nofun
  exact exec_eq_fault_of_precheck ((precheck_of_mode64 hmode _).trans ((if_neg hnone).trans (if_pos hts)))

/-- Settles O21: the table of R127 and the values of R128, exception by exception. -/
theorem exceptionRecords : Obligations.ExceptionRecords := by
  unfold Obligations.ExceptionRecords
  exact fun s code a => ⟨rfl, rfl, rfl, rfl, rfl⟩

/-! ### The fetch before the decoder's answer -/

/-- The first byte can be fetched, and so can the bytes after it. -/
theorem fetchByte_and_codeAt_of_cons {s : State} {a : Nat} {b : Byte} {bs : List Byte} (h : codeAt s a (b :: bs)) :
    fetchByte s a = .next b ∧ codeAt s (a + 1) bs := by
  refine ⟨h 0 (Nat.zero_lt_succ _), fun m hm => ?_⟩
  rw [Nat.add_right_comm, Nat.add_assoc]
  exact h (m + 1) (Nat.succ_lt_succ hm)

/-- The fetch does not stop at bytes that can be fetched. -/
theorem fetchStop_of_codeAt {s : State} {bs : List Byte} {a n : Nat} (h : codeAt s a bs) (hn : bs.length ≤ n) :
    fetchStop s n a = fetchStop s (n - bs.length) (a + bs.length) := by
  induction bs generalizing a n with
  | nil => rfl
  | cons b bs ih =>
    obtain ⟨n, rfl⟩ := Nat.exists_eq_add_one.mpr (Nat.zero_lt_of_lt hn)
    obtain ⟨hhead, htail⟩ := fetchByte_and_codeAt_of_cons h
    rw [fetchStop, hhead]
    simp only [ih htail (Nat.le_of_succ_le_succ hn), List.length_cons, Nat.add_sub_add_right, Nat.add_assoc,
      Nat.add_comm 1 bs.length]

/-- From a byte that faults on, the fetch holds nothing. -/
theorem fetchWindow_of_fault {s : State} {a : Nat} {f : Fault} (h : fetchByte s a = .fault f) (n : Nat) :
    fetchWindow s n a = [] := by
  cases n with
  | zero => rfl
  | succ n => simp [fetchWindow, h]

/-- Settles O15: the fetch holds the bytes before the one that faults, on which the decoder asks for more, so the step
ends as the fetch stops. -/
theorem fetchFaultComesFirst : Obligations.FetchFaultComesFirst := by
  unfold Obligations.FetchFaultComesFirst
  intro s bs f hmode hcode hfault hlen hmore
  have hle : bs.length ≤ fetchLimit := hlen.le
  have hdecode : fetchDecode s = .more := by
    rw [fetchDecode, fetchWindow_of_codeAt s bs _ _ hcode hle, fetchWindow_of_fault hfault, List.append_nil, hmore]
  have hstop : fetchStop s fetchLimit s.rip.toNat = .fault f := by
    obtain ⟨k, hk⟩ := Nat.exists_eq_add_one.mpr (Nat.sub_pos_of_lt hlen)
    rw [fetchStop_of_codeAt hcode hle, fetchLimit, hk, fetchStop, hfault]
  simp [step, hmode, hdecode, hstop]

/-! ### The privilege level -/

/-- The `r/m` operand of an instruction that reads no memory is the low `VL` bits of a register (R69, R91). -/
theorem fetchOf_of_registerOnly {i : Instr} (h : registerOnly i = true) :
    ∃ n, ∀ s, fetchOf i s = .next (readVL s i.form.vl n) := by
  cases i with
  | vexVar128 _ _ rm | vexImm128 _ rm _ | vexVar256 _ _ rm | vexImm256 _ rm _ =>
    cases rm with
    | reg m => exact ⟨m.setWidth 5, fun _ => rfl⟩
    | mem => simp [registerOnly] at h
  | evexVar128 _ _ rm _ | evexVar256 _ _ rm _ | evexVar512 _ _ rm _ | evexImm128 _ rm _ _ | evexImm256 _ rm _ _
  | evexImm512 _ rm _ _ =>
    cases rm with
    | reg m => exact ⟨m, fun _ => rfl⟩
    | mem => simp [registerOnly] at h

/-- The state at another privilege level. -/
def State.atPrivilege (s : State) (p : BitVec 2) : State := { s with cpl := p }

section Privilege
variable (s : State) (p : BitVec 2)

@[simp] theorem readVL_atPrivilege (vl : VL) (n : BitVec 5) : readVL (s.atPrivilege p) vl n = readVL s vl n := rfl

@[simp] theorem precheck_atPrivilege (f : Form) : precheck f (s.atPrivilege p) = precheck f s := rfl

@[simp] theorem resultOf_atPrivilege (i : Instr) (x : Vec) : resultOf i (s.atPrivilege p) x = resultOf i s x := by
  cases i <;> rfl

theorem complete_atPrivilege (d : BitVec 5) (x : Vec) (len : Nat) :
    complete (s.atPrivilege p) d x len = mapNext (·.atPrivilege p) (complete s d x len) := by
  rw [complete, complete, apply_ite (mapNext _)]
  rfl

end Privilege

/-- Settles O39: of the parts of the sequence only the operand could depend on the privilege level, and a register
does not. -/
theorem privilegeLevelHasNoEffect : Obligations.PrivilegeLevelHasNoEffect := by
  unfold Obligations.PrivilegeLevelHasNoEffect
  intro i s p hreg
  change exec i (s.atPrivilege p) = mapNext (·.atPrivilege p) (exec i s)
  obtain ⟨n, hfetch⟩ := fetchOf_of_registerOnly hreg
  simp only [exec_eq_sequence, mapNext_andThen, precheck_atPrivilege, hfetch, readVL_atPrivilege,
    resultOf_atPrivilege, complete_atPrivilege]

/-! ### Runs -/

/-- The state in which a run ends. -/
def RunEnd.state : RunEnd → State
  | .done s | .fault _ s | .refused _ s | .unfinished s => s

section Run
variable {aend : Word} {s : State}

theorem runTo_of_rip_eq (h : s.rip = aend) (fuel : Nat) : runTo aend fuel s = .done s := by
  cases fuel <;> rw [runTo, if_pos h]

theorem runTo_zero_of_rip_ne (h : s.rip ≠ aend) : runTo aend 0 s = .unfinished s := by
  rw [runTo, if_neg h]

theorem runTo_succ_of_next {t : State} (h : s.rip ≠ aend) (hstep : step s = .next t) (fuel : Nat) :
    runTo aend (fuel + 1) s = runTo aend fuel t := by
  rw [runTo, if_neg h, hstep]

theorem runTo_succ_of_fault {f : Fault} (h : s.rip ≠ aend) (hstep : step s = .fault f) (fuel : Nat) :
    runTo aend (fuel + 1) s = .fault f s := by
  rw [runTo, if_neg h, hstep]

theorem runTo_succ_of_refused {r : Refusal} (h : s.rip ≠ aend) (hstep : step s = .refused r) (fuel : Nat) :
    runTo aend (fuel + 1) s = .refused r s := by
  rw [runTo, if_neg h, hstep]

end Run

/-- What every step keeps, a run keeps (R149). -/
theorem runTo_keeps {α : Type} {g : State → α} (hg : ∀ s t, step s = .next t → g t = g s) (aend : Word) (fuel : Nat)
    (s : State) : g (runTo aend fuel s).state = g s := by
  induction fuel generalizing s with
  | zero =>
    by_cases hrip : s.rip = aend
    · rw [runTo_of_rip_eq hrip, RunEnd.state]
    · rw [runTo_zero_of_rip_ne hrip, RunEnd.state]
  | succ fuel ih =>
    by_cases hrip : s.rip = aend
    · rw [runTo_of_rip_eq hrip, RunEnd.state]
    · cases hstep : step s with
      | next t => rw [runTo_succ_of_next hrip hstep, ih t, hg s t hstep]
      | fault f => rw [runTo_succ_of_fault hrip hstep, RunEnd.state]
      | refused r => rw [runTo_succ_of_refused hrip hstep, RunEnd.state]

/-- A run that ends in a fault ends before the end address, in the state whose own step is that fault (R131, R149). -/
theorem step_of_runTo_fault {aend : Word} {fuel : Nat} {s t : State} {f : Fault} (h : runTo aend fuel s = .fault f t) :
    step t = .fault f ∧ t.rip ≠ aend := by
  induction fuel generalizing s with
  | zero =>
    by_cases hrip : s.rip = aend
    · simp [runTo_of_rip_eq hrip] at h
    · simp [runTo_zero_of_rip_ne hrip] at h
  | succ fuel ih =>
    by_cases hrip : s.rip = aend
    · simp [runTo_of_rip_eq hrip] at h
    · cases hstep : step s with
      | next u => exact ih ((runTo_succ_of_next hrip hstep fuel).symm.trans h)
      | fault e =>
        rw [runTo_succ_of_fault hrip hstep] at h
        cases h
        exact ⟨hstep, hrip⟩
      | refused r => simp [runTo_succ_of_refused hrip hstep] at h

theorem mem_of_step {s t : State} (h : step s = .next t) : t.mem = s.mem := (noStepWritesMemory s t h).1

theorem readG_of_step {s t : State} (h : step s = .next t) : readG t = readG s := by
  obtain ⟨_, i, _, _, hexec⟩ := step_next_cases h
  obtain ⟨_, _, x, rfl⟩ := exec_next_cases hexec
  rfl

/-- Settles O59: the last step faults, and the steps before it keep memory and the general registers. -/
theorem runFaultsInTheStateBefore : Obligations.RunFaultsInTheStateBefore := by
  unfold Obligations.RunFaultsInTheStateBefore
  intro fuel aend s t f h
  obtain ⟨hstep, hrip⟩ := step_of_runTo_fault h
  have hend : (runTo aend fuel s).state = t := by rw [h, RunEnd.state]
  have hmem := runTo_keeps (g := State.mem) (fun _ _ => mem_of_step) aend fuel s
  have hregs := runTo_keeps (g := readG) (fun _ _ => readG_of_step) aend fuel s
  rw [hend] at hmem hregs
  exact ⟨hstep, hrip, hmem, congrFun hregs⟩

end Sys2Proof.Machine

/-! Enabled forms and programs (70_reset_and_hazards.md R142, R149). Its one idea: an instruction that completes writes
neither a condition of `Enabled` nor a byte of the program. So after it the rest of a straight-line program stands as it
stood, each of its instructions as enabled as before, and the run is an induction over the list. -/

namespace Sys2Proof.Machine

/-! ### An enabled form -/

theorem mode64_of_enabled {f : Form} {s : State} (h : enabled f s = true) : s.mode64 = true := by
  simp only [enabled, Bool.and_eq_true] at h
  obtain ⟨⟨⟨⟨⟨hmode, _⟩, _⟩, _⟩, _⟩, _⟩ := h
  exact hmode

/-- Settles O20: an enabled form passes the check, which leaves the operand as the only part that can fault. -/
theorem enabledFormFaultsOnlyOnItsOperand : Obligations.EnabledFormFaultsOnlyOnItsOperand := by
  unfold Obligations.EnabledFormFaultsOnlyOnItsOperand
  intro i s f hen
  have hcheck : precheck i.form s ≠ .fault f := by
    rw [(precheck_next_iff _ _).mpr hen]
    nofun
  rw [exec_fault_iff, or_iff_right hcheck, and_iff_right hen]

/-- Settles O22: a register operand is always fetched, so nothing is left that could stop the form. -/
theorem registerFormsComplete : Obligations.RegisterFormsComplete := by
  unfold Obligations.RegisterFormsComplete
  intro i s hreg hen hrip
  obtain ⟨n, hfetch⟩ := fetchOf_of_registerOnly hreg
  exact ⟨_, exec_next_iff.mpr ⟨hen, hrip, _, hfetch s, rfl⟩, rfl⟩

/-! ### What an instruction that completes keeps -/

theorem enabled_of_exec {i : Instr} {s t : State} (h : exec i s = .next t) (f : Form) : enabled f t = enabled f s := by
  obtain ⟨_, _, x, rfl⟩ := exec_next_cases h
  rfl

theorem enabled_of_step {s t : State} (h : step s = .next t) (f : Form) : enabled f t = enabled f s := by
  obtain ⟨_, i, _, _, hexec⟩ := step_next_cases h
  exact enabled_of_exec hexec f

theorem fetchByte_of_exec {i : Instr} {s t : State} (h : exec i s = .next t) (a : Nat) :
    fetchByte t a = fetchByte s a := by
  obtain ⟨_, _, x, rfl⟩ := exec_next_cases h
  rfl

theorem codeAt_of_exec {i : Instr} {s t : State} (h : exec i s = .next t) {a : Nat} {bs : List Byte}
    (hcode : codeAt s a bs) : codeAt t a bs :=
  fun m hm => (fetchByte_of_exec h (a + m)).trans (hcode m hm)

/-- Settles O58: what every step keeps, a run keeps. -/
theorem runKeepsEnabled : Obligations.RunKeepsEnabled := by
  unfold Obligations.RunKeepsEnabled
  intro fuel aend s t f h
  have hkeeps := runTo_keeps (g := enabled f) (fun _ _ hstep => enabled_of_step hstep f) aend fuel s
  rwa [h, RunEnd.state] at hkeeps

/-! ### A straight-line program -/

/-- Of bytes end to end the first stand at the address, and the others behind the first. -/
theorem codeAt_and_codeAt_of_append {s : State} {a : Nat} {bs cs : List Byte} (h : codeAt s a (bs ++ cs)) :
    codeAt s a bs ∧ codeAt s (a + bs.length) cs := by
  constructor
  · intro m hm
    have hm' : m < (bs ++ cs).length := List.length_append ▸ Nat.lt_add_right _ hm
    simpa [hm] using h m hm'
  · intro m hm
    have hm' : bs.length + m < (bs ++ cs).length := by simpa using hm
    simpa [Nat.add_assoc] using h (bs.length + m) hm'

theorem programBytes_cons (i : Instr) (is : List Instr) : programBytes (i :: is) = encode i ++ programBytes is := rfl

/-- An encoding is never empty (30_encoding.md R79). -/
theorem length_encode_pos (i : Instr) : 0 < (encode i).length := by
  obtain ⟨hlen, hmin, _⟩ := encodedLength i
  omega

/-- Below the top of memory an address further on is another address. -/
theorem rip_ne_add {s : State} {n : Nat} (hpos : 0 < n) (h : s.rip.toNat + n < 2 ^ 64) :
    s.rip ≠ s.rip + BitVec.ofNat 64 n := by
  intro heq
  have hadvance := toNat_rip_advance h
  rw [advance_rip, ← heq] at hadvance
  omega

/-- The step at an enabled register-operand instruction completes, and `rip` comes to stand behind its bytes. -/
theorem exists_step_of_registerOnly {i : Instr} {s : State} (hwf : i.wf = true) (hreg : registerOnly i = true)
    (hen : enabled i.form s = true) (hrip : s.rip.toNat + (encode i).length < 2 ^ 64)
    (hcode : codeAt s s.rip.toNat (encode i)) :
    ∃ t, step s = .next t ∧ exec i s = .next t ∧ t.rip = s.rip + BitVec.ofNat 64 (encode i).length := by
  rw [encode_length] at hrip ⊢
  obtain ⟨t, hexec, ht⟩ := registerFormsComplete i s hreg hen hrip
  exact ⟨t, (stepRunsEncodedInstruction s i (mode64_of_enabled hen) hwf hcode).trans hexec, hexec, ht⟩

/-- Settles O60, by induction on the program: the first instruction completes, and the rest stands behind it. -/
theorem straightLineProgramIsDone : Obligations.StraightLineProgramIsDone := by
  unfold Obligations.StraightLineProgramIsDone
  intro is
  induction is with
  | nil => exact fun s _ _ _ => ⟨s, runTo_of_rip_eq (BitVec.add_zero _).symm _⟩
  | cons i is ih =>
    intro s his hend hcode
    obtain ⟨⟨hwf, hreg, hen⟩, hrest⟩ := List.forall_mem_cons.mp his
    rw [programBytes_cons] at hcode
    rw [programBytes_cons, List.length_append] at hend ⊢
    obtain ⟨hfirst, hbehind⟩ := codeAt_and_codeAt_of_append hcode
    have hne := rip_ne_add (Nat.add_pos_left (length_encode_pos i) _) hend
    obtain ⟨t, hstep, hexec, ht⟩ := exists_step_of_registerOnly hwf hreg hen (by omega) hfirst
    have htNat : t.rip.toNat = s.rip.toNat + (encode i).length := completingFormAdvancesRip i s t hexec
    rw [List.length_cons, runTo_succ_of_next hne hstep, BitVec.ofNat_add, ← BitVec.add_assoc, ← ht]
    rw [← Nat.add_assoc, ← htNat] at hend
    rw [← htNat] at hbehind
    refine ih t (fun j hj => ?_) hend (codeAt_of_exec hexec hbehind)
    rw [enabled_of_exec hexec]
    exact hrest j hj

end Sys2Proof.Machine

/-! Outside 64-bit mode (92_eei_decisions.md D4). Its one idea: the mode is the second question of the check before every
form, after the first line of `CheckUD`, so one of these two answers is the instruction's. -/

namespace Sys2Proof.Machine

/-- A refusal of the check is the instruction's, whatever its operand. -/
theorem exec_eq_refused_of_precheck {i : Instr} {s : State} {r : Refusal} (h : precheck i.form s = .refused r) :
    exec i s = .refused r := by
  rw [exec_eq_sequence, h, andThen_refused]

/-- The step looks at the mode before it fetches a byte. -/
theorem step_of_not_mode64 {s : State} (hmode : s.mode64 = false) : step s = .refused .not64BitMode := by
  refine if_pos ?_
  rwa [Bool.not_eq_true']

/-- With the first line of `CheckUD` passed, the check asks for 64-bit mode before anything else (R123, D4). -/
theorem precheck_of_not_mode64 {s : State} (hmode : s.mode64 = false) (hline : ¬(s.pe = false ∨ s.vm = true))
    (f : Form) : precheck f s = .refused .not64BitMode := by
  refine (if_neg ?_).trans (if_pos ?_)
  · rwa [Bool.or_eq_true, Bool.not_eq_true']
  · rwa [Bool.not_eq_true']

/-- Settles O16: the first line of `CheckUD` holds and raises `#UD`, or it does not and the mode is refused. -/
theorem onlySixtyFourBitModeRuns : Obligations.OnlySixtyFourBitModeRuns := by
  unfold Obligations.OnlySixtyFourBitModeRuns
  refine fun s i hmode => ⟨step_of_not_mode64 hmode, ?_⟩
  by_cases hline : s.pe = false ∨ s.vm = true
  · exact .inl (exec_eq_fault_of_precheck (precheck_eq_ud_of_pe_or_vm hline _))
  · exact .inr (exec_eq_refused_of_precheck (precheck_of_not_mode64 hmode hline _))

end Sys2Proof.Machine
